-- ==== Sys2Proof/Word.lean ====
section
/-! DEFINITION. The words of MAGMA-CORE (00_scope.md R12, R13): plain bit vectors, every value unsigned. -/

namespace Sys2Proof

/-- A 32-bit value, the spec's `u32` (R12). -/
abbrev Word := BitVec 32

/-- A block or any 64-bit value, the spec's `u64` (R12). -/
abbrev Block := BitVec 64

/-- One byte of a byte sequence (R13). -/
abbrev Byte := BitVec 8

/-- One 4-bit nibble of a word (R13). -/
abbrev Nibble := BitVec 4

/-- The contents of the S-box ROM: eight tables of sixteen 4-bit entries (R7, R47). -/
abbrev SBox := Vector (Vector Nibble 16) 8

end Sys2Proof
end

