-- ==== Sys2Proof/Syntax.lean ====
section
/-! DEFINITION. The instructions of MAGMA-CORE: one constructor per row of spec/opcode_table.json. Eight are commands the host writes to CMD
(30_encoding.md R92), two are the bus transactions (R100). -/

namespace Sys2Proof

/-- The instructions. `klen` and `padn` are the unsigned integers of R94; `addr` is the 6-bit word index of the bus port (R100) and
`wdata` the written word. -/
inductive Instr where
  /-- NOP (45_bus_control.md R235). -/
  | nop
  /-- KEYLOAD with the key length the host read (40_key_schedule.md R116). -/
  | keyload (klen : Nat)
  /-- ENC (42_feistel.md R171). -/
  | enc
  /-- DEC (42_feistel.md R172). -/
  | dec
  /-- PAD with the number of valid bytes in the final chunk (43_padding.md R196). -/
  | pad (padn : Nat)
  /-- UNPAD (43_padding.md R197). -/
  | unpad
  /-- XFORM_T (41_transform_round.md R143). -/
  | xformT
  /-- ROUND_G (41_transform_round.md R144). -/
  | roundG
  /-- BUSWR: `MemWrite(4 * addr, 4, wdata)` (45_bus_control.md R231). -/
  | buswr (addr : BitVec 6) (wdata : Word)
  /-- BUSRD: `MemRead(4 * addr, 4)` (45_bus_control.md R232). -/
  | busrd (addr : BitVec 6)
deriving DecidableEq, Repr

end Sys2Proof
end

