-- ==== Sys2Proof/WellFormed.lean ====
section
/-! DEFINITION. Which instructions an encoding can express: KLEN has 4 bits and PADN has 3 (30_encoding.md R91). -/

namespace Sys2Proof

/-- Every operand fits its field (30_encoding.md R91). The bus operands are bit vectors of the port's width (R100), so every value
of them is well formed. -/
def Instr.wf : Instr → Bool
  | .nop => true
  | .keyload klen => decide (klen < 16)
  | .enc => true
  | .dec => true
  | .pad padn => decide (padn < 8)
  | .unpad => true
  | .xformT => true
  | .roundG => true
  | .buswr _ _ => true
  | .busrd _ => true

/-- Is the instruction a command, written to CMD (30_encoding.md R90), and not a bus transaction (R100)? -/
def Instr.isCommand : Instr → Bool
  | .nop => true
  | .keyload _ => true
  | .enc => true
  | .dec => true
  | .pad _ => true
  | .unpad => true
  | .xformT => true
  | .roundG => true
  | .buswr _ _ => false
  | .busrd _ => false

end Sys2Proof
end

