-- ==== Sys2Proof/Decode.lean ====
section
/-! DEFINITION. The decoder, total on every command word and every bus pattern, and the encoder (30_encoding.md R90–R95, R99, R100). -/

namespace Sys2Proof

/-- Why a command word is illegal, one name per line of 30_encoding.md R93's `illegal(c)`. The hardware reports only E_ILLEGAL
(R93); the names are the model's own and reach no state. -/
inductive IllegalReason where
  /-- `c[3:0] >= 0x8`. -/
  | reservedOp
  /-- `c[31:11] != 0`. -/
  | reservedBits
  /-- KLEN outside KEYLOAD. -/
  | klenOutsideKeyload
  /-- PADN outside PAD. -/
  | padnOutsidePad
deriving DecidableEq, Repr

/-- Field OP of a command word, bits 3:0 (R91). -/
def cmdOp (c : Word) : BitVec 4 := c.extractLsb' 0 4

/-- Field KLEN of a command word, bits 7:4 (R91). -/
def cmdKlen (c : Word) : BitVec 4 := c.extractLsb' 4 4

/-- Field PADN of a command word, bits 10:8 (R91). -/
def cmdPadn (c : Word) : BitVec 3 := c.extractLsb' 8 3

/-- Field RSV of a command word, bits 31:11 (R91). -/
def cmdRsv (c : Word) : BitVec 21 := c.extractLsb' 11 21

/-- The opcode map (R92); opcodes 0x8–0xF are reserved. -/
def opcodeMap (op : BitVec 4) (klen : BitVec 4) (padn : BitVec 3) : Option Instr :=
  match op.toNat with
  | 0 => some .nop
  | 1 => some (.keyload klen.toNat)
  | 2 => some .enc
  | 3 => some .dec
  | 4 => some (.pad padn.toNat)
  | 5 => some .unpad
  | 6 => some .xformT
  | 7 => some .roundG
  | _ => none

/-- The command a word stands for, or why it is illegal (R92, R93). Nothing falls through: every word the table does not give is
rejected. The reasons are tried in the order of R93's lines. -/
def decodeCmd (c : Word) : Except IllegalReason Instr :=
  match opcodeMap (cmdOp c) (cmdKlen c) (cmdPadn c) with
  | none => .error .reservedOp
  | some i =>
    if cmdRsv c ≠ 0 then .error .reservedBits
    else if cmdKlen c ≠ 0 ∧ cmdOp c ≠ 0x1 then .error .klenOutsideKeyload
    else if cmdPadn c ≠ 0 ∧ cmdOp c ≠ 0x4 then .error .padnOutsidePad
    else .ok i

/-- The bus transaction of the 7-bit pattern `we ++ addr` and the data lines (R100). Every pattern is decodable. -/
def decodeBus (weAddr : BitVec 7) (wdata : Word) : Instr :=
  if weAddr.getLsbD 6 then .buswr (weAddr.extractLsb' 0 6) wdata else .busrd (weAddr.extractLsb' 0 6)

/-- The two formats: a word in CMD (R90), or the port values of one cycle with `sel = 1` (R100). -/
inductive Encoded where
  | cmd (word : Word)
  | bus (weAddr : BitVec 7) (wdata : Word)
deriving DecidableEq, Repr

/-- The decoder over both formats. -/
def decode : Encoded → Except IllegalReason Instr
  | .cmd word => decodeCmd word
  | .bus weAddr wdata => .ok (decodeBus weAddr wdata)

/-- A command word from its fields (R91). -/
def cmdWord (op : BitVec 4) (klen padn : Nat) : Word :=
  (0 : BitVec 21) ++ BitVec.ofNat 3 padn ++ BitVec.ofNat 4 klen ++ op

/-- The pattern `we ++ addr` (R100). -/
def busPattern (we : Bool) (addr : BitVec 6) : BitVec 7 := BitVec.ofBool we ++ addr

/-- The encoder (R91, R92, R100). A read drives no data; its data lines are written as 0. -/
def encode : Instr → Encoded
  | .nop => .cmd (cmdWord 0x0 0 0)
  | .keyload klen => .cmd (cmdWord 0x1 klen 0)
  | .enc => .cmd (cmdWord 0x2 0 0)
  | .dec => .cmd (cmdWord 0x3 0 0)
  | .pad padn => .cmd (cmdWord 0x4 0 padn)
  | .unpad => .cmd (cmdWord 0x5 0 0)
  | .xformT => .cmd (cmdWord 0x6 0 0)
  | .roundG => .cmd (cmdWord 0x7 0 0)
  | .buswr addr wdata => .bus (busPattern true addr) wdata
  | .busrd addr => .bus (busPattern false addr) 0

/-- What the decoder reads from an opcode-table row's bits. The table gives a command 32 bits and a bus transaction the 7 bits
`we ++ addr`, so the length tells the formats apart (log 4). -/
def decodeTableWord (nbits w : Nat) : Option Instr :=
  if nbits ≤ 8 then
    if w < 2 ^ 7 then some (decodeBus (BitVec.ofNat 7 w) 0) else none
  else if w < 2 ^ 32 then
    match decodeCmd (BitVec.ofNat 32 w) with
    | .ok i => some i
    | .error _ => none
  else none

end Sys2Proof
end

