-- ==== Sys2Proof/Config.lean ====
section
/-! DEFINITION. What an implementation fixes: the constants of 00_scope.md R7–R9, the parameters with their law (44_usage.md R219),
and the open S-box contents (R11). -/

namespace Sys2Proof.Config

/-- `CHARGE_BYTES`: the bytes charged per encrypted block (R9, 44_usage.md R213). -/
def chargeBytes : Nat := 8

/-- `ID_VALUE` (R9, 10_state.md R43). -/
def idValue : Word := 0x4D414701#32

/-- The number of Feistel rounds (R7). -/
def rounds : Nat := 32

/-- The parameters of one instance that the spec leaves open with defaults (R8, R9; 92_eei_decisions.md D43, D44).
The law of 44_usage.md R219 is part of the type, so a configuration that breaks it cannot be built ("must refuse a configuration
that breaks this").
DEDUCED, safe (log 6): the range of `keyIdBits`, since KEY_ID is a 32-bit register with an ID field of at least one bit. -/
structure Params where
  /-- `WARN_BYTES`, the soft threshold. -/
  warnBytes : Nat
  /-- `CEIL_BYTES`, the hard ceiling. -/
  ceilBytes : Nat
  /-- `KEY_ID_BITS`, the width of a key identifier. -/
  keyIdBits : Nat
  charge_le_warn : chargeBytes ≤ warnBytes
  warn_lt_ceil : warnBytes < ceilBytes
  ceil_lt : ceilBytes < 2 ^ 32 - chargeBytes
  keyIdBits_pos : 1 ≤ keyIdBits
  keyIdBits_le : keyIdBits ≤ 32
deriving DecidableEq, Repr

/-- The defaults: `WARN_BYTES = 10240`, `CEIL_BYTES = 20480`, `KEY_ID_BITS = 4` (R8, R9). -/
def Params.default : Params where
  warnBytes := 10240
  ceilBytes := 20480
  keyIdBits := 4
  charge_le_warn := by decide
  warn_lt_ceil := by decide
  ceil_lt := by decide
  keyIdBits_pos := by decide
  keyIdBits_le := by decide

/-- The open parameter `SBOX` (R11, 41_transform_round.md R130): eight permutations of 0..15 and nothing else is known of them.
It has no body, so no proof can lean on an entry (log 5). -/
opaque sboxRom : Fin 8 → Equiv.Perm (Fin 16)

/-- The ROM contents as plain data. -/
def sbox : SBox := Vector.ofFn fun i => Vector.ofFn fun v => BitVec.ofFin (sboxRom i v)

/-- `SBOX_TC26Z` (41_transform_round.md R131): the reference table, an instantiation for test vectors only. It is NOT the
hardware's table. -/
def sboxTc26z : SBox :=
  #v[#v[0xC, 0x4, 0x6, 0x2, 0xA, 0x5, 0xB, 0x9, 0xE, 0x8, 0xD, 0x7, 0x0, 0x3, 0xF, 0x1],
     #v[0x6, 0x8, 0x2, 0x3, 0x9, 0xA, 0x5, 0xC, 0x1, 0xE, 0x4, 0x7, 0xB, 0xD, 0x0, 0xF],
     #v[0xB, 0x3, 0x5, 0x8, 0x2, 0xF, 0xA, 0xD, 0xE, 0x1, 0x7, 0x4, 0xC, 0x9, 0x6, 0x0],
     #v[0xC, 0x8, 0x2, 0x1, 0xD, 0x4, 0xF, 0x6, 0x7, 0x0, 0xA, 0x5, 0x3, 0xE, 0x9, 0xB],
     #v[0x7, 0xF, 0x5, 0xA, 0x8, 0x1, 0x6, 0xD, 0x0, 0x9, 0x3, 0xE, 0xB, 0x4, 0x2, 0xC],
     #v[0x5, 0xD, 0xF, 0x6, 0x9, 0x2, 0xC, 0xA, 0xB, 0x7, 0x8, 0x1, 0x4, 0x3, 0xE, 0x0],
     #v[0x8, 0xE, 0x2, 0x5, 0x6, 0x9, 0x1, 0xC, 0xF, 0x4, 0xB, 0x0, 0xD, 0xA, 0x3, 0x7],
     #v[0x1, 0x7, 0xE, 0xD, 0x0, 0x5, 0x8, 0x3, 0x4, 0xF, 0xA, 0x6, 0x9, 0xC, 0xB, 0x2]]

end Sys2Proof.Config
end

