-- ==== Sys2Proof/Machine/State.lean ====
section
/-! DEFINITION. The state of the block (10_state.md R20–R50), the ports the host drives (20_memory.md R62), and the state after
reset. -/

namespace Sys2Proof.Machine

/-- The engine state `st` (10_state.md R24). -/
inductive EngineState where
  /-- No command in flight. -/
  | idle
  /-- A command was accepted and its first engine step is due. -/
  | start
  /-- An ENC or DEC is iterating rounds. -/
  | rounds
deriving DecidableEq, Repr

/-- The result codes (30_encoding.md R96). Codes 0x8–0xF are never produced, so they have no constructor. -/
inductive ResultCode where
  | ok
  | warn
  | eKeylen
  | eExhausted
  | eNokey
  | eIllegal
  | padAllzero
  | eBadpad
deriving DecidableEq, Repr

/-- The host-driven ports in one clock cycle (20_memory.md R62). With `sel` low, `we`, `addr` and `wdata` mean nothing. -/
structure PortIn where
  rst : Bool
  sel : Bool
  we : Bool
  addr : BitVec 6
  wdata : Word
deriving DecidableEq, Repr

/-- A cycle in which the host does nothing. -/
def PortIn.idle : PortIn := ⟨false, false, false, 0, 0⟩

/-- A cycle with a bus read of word `addr`. -/
def PortIn.read (addr : BitVec 6) : PortIn := ⟨false, true, false, addr, 0⟩

/-- A cycle with a bus write of `v` to word `addr`. -/
def PortIn.write (addr : BitVec 6) (v : Word) : PortIn := ⟨false, true, true, addr, v⟩

/-- A cycle with reset asserted. -/
def PortIn.reset : PortIn := ⟨true, false, false, 0, 0⟩

/-- The state of MAGMA-CORE (10_state.md R20), the values on its ports, and the instance's parameters. STATUS is held as its
fields; BUSY is a view of `st` (R35) and ROUND a view of `r` (R39). -/
structure State where
  /-- `K[0..7]` (R21). -/
  k : Vector Word 8
  /-- `N_HI` (R22). -/
  nHi : Word
  /-- `N_LO` (R22). -/
  nLo : Word
  /-- The round counter (R23), read as STATUS.ROUND (R39). -/
  r : BitVec 5
  /-- The engine state (R24). -/
  st : EngineState
  /-- `L_CMD` (R25). -/
  lCmd : Word
  /-- `L_KEY` (R25). -/
  lKey : BitVec 56
  /-- `L_RKEY` (R25). -/
  lRkey : Word
  /-- `L_KEYID` (R25), zero-extended (log 9). -/
  lKeyid : Word
  /-- `USAGE_T`, entry `j` at position `j` (R46). -/
  usageT : List Word
  /-- `KEY_LO` (R26). -/
  keyLo : Word
  /-- `KEY_HI` (R27). -/
  keyHi : Word
  /-- `DIN_HI` (R28). -/
  dinHi : Word
  /-- `DIN_LO` (R28). -/
  dinLo : Word
  /-- `RKEY` (R29). -/
  rkey : Word
  /-- `KEY_ID` (R30). -/
  keyId : Word
  /-- `CFG` (R42). -/
  cfg : Word
  /-- `DOUT_HI` (R31). -/
  doutHi : Word
  /-- `DOUT_LO` (R31). -/
  doutLo : Word
  /-- `UPLEN` (R32). -/
  uplen : Word
  /-- STATUS.DONE (R36). -/
  done : Bool
  /-- STATUS.KEYVALID (R37). -/
  keyvalid : Bool
  /-- STATUS.RESULT (R38). -/
  result : ResultCode
  /-- STATUS.WARN (R40). -/
  warn : Bool
  /-- STATUS.OVR (R41). -/
  ovr : Bool
  /-- The S-box ROM (R47); no step writes it. -/
  sbox : SBox
  /-- The parameters of this instance (00_scope.md R8, R9); no step writes them (log 6). -/
  params : Config.Params
  /-- The host: the port values of the coming cycles, the next one first (log 1). -/
  inputs : List PortIn
  /-- The `rdata` port in the last cycle: a word if that cycle was a read, none otherwise (20_memory.md R62; log 2). -/
  rdata : Option Word
deriving DecidableEq, Repr

/-- There is no fault: "The block has no hang, no stuck state and no fault state" (70_reset_and_hazards.md R293). Nothing raises
one, so the type has no constructor; safe. -/
inductive Fault where
deriving DecidableEq, Repr

/-- The only refusal. -/
inductive Refusal where
  /-- Raised by `exec` alone, for an instruction that has no meaning yet; no arm is refused in this model. Safe. -/
  | notModelled (mnemonic : String)
deriving DecidableEq, Repr

/-- What an instruction or a step answers. -/
abbrev StepResult := Host.Outcome State Fault Refusal

/-- The state a reset leaves (10_state.md R50), for a given ROM and parameters: everything 0 or IDLE. -/
def State.resetOf (sbox : SBox) (params : Config.Params) : State where
  k := Vector.replicate 8 0
  nHi := 0
  nLo := 0
  r := 0
  st := .idle
  lCmd := 0
  lKey := 0
  lRkey := 0
  lKeyid := 0
  usageT := List.replicate (2 ^ params.keyIdBits) 0
  keyLo := 0
  keyHi := 0
  dinHi := 0
  dinLo := 0
  rkey := 0
  keyId := 0
  cfg := 0
  doutHi := 0
  doutLo := 0
  uplen := 0
  done := false
  keyvalid := false
  result := .ok
  warn := false
  ovr := false
  sbox := sbox
  params := params
  inputs := []
  rdata := none

/-- The machine right after reset (R50): the default parameters (00_scope.md R8, R9) and the open S-box contents (R11). -/
def State.reset : State := State.resetOf Config.sbox Config.Params.default

end Sys2Proof.Machine
end

