-- ==== Sys2Proof/Machine/Flags.lean ====
section
/-! DEFINITION. The status flags: the result codes' numbers (30_encoding.md R96), the STATUS word (10_state.md R34, 45_bus_control.md R232), its
write-one-to-clear bits, and the interrupt line (60_exceptions.md R252). -/

namespace Sys2Proof.Machine

/-- The 4-bit number of a result code (30_encoding.md R96). -/
def ResultCode.code : ResultCode → BitVec 4
  | .ok => 0x0
  | .warn => 0x1
  | .eKeylen => 0x2
  | .eExhausted => 0x3
  | .eNokey => 0x4
  | .eIllegal => 0x5
  | .padAllzero => 0x6
  | .eBadpad => 0x7

/-- A flag as the least significant bit of a word. -/
def flagBit (b : Bool) : Word := (BitVec.ofBool b).setWidth 32

/-- STATUS.BUSY: 1 exactly when `st ≠ IDLE` (10_state.md R35). -/
def State.busy (s : State) : Bool := decide (s.st ≠ .idle)

/-- The STATUS word as a read returns it (45_bus_control.md R232). -/
def statusWord (s : State) : Word :=
  flagBit s.ovr <<< 17 ||| flagBit s.warn <<< 16 ||| s.r.setWidth 32 <<< 8 ||| s.result.code.setWidth 32 <<< 4 |||
    flagBit s.keyvalid <<< 2 ||| flagBit s.done <<< 1 ||| flagBit s.busy

/-- A host write to STATUS: DONE, WARN and OVR are cleared where the written bit is 1, nothing else changes (10_state.md R34,
45_bus_control.md R231). -/
def statusWrite (v : Word) (s : State) : State :=
  { s with
    done := s.done && !v.getLsbD 1
    warn := s.warn && !v.getLsbD 16
    ovr := s.ovr && !v.getLsbD 17 }

/-- The interrupt enable CFG.IE (10_state.md R42). -/
def State.ie (s : State) : Bool := s.cfg.getLsbD 0

/-- The interrupt output, a level: `irq = CFG.IE AND STATUS.DONE` (60_exceptions.md R252). -/
def irq (s : State) : Bool := s.ie && s.done

end Sys2Proof.Machine
end

