-- ==== Sys2Proof/Machine/Operands.lean ====
section
/-! DEFINITION. Operand forms: big-endian words, bytes and nibbles (00_scope.md R13, 20_memory.md R60, R61), the latched key's bytes
(40_key_schedule.md R110) and the key-identifier field (10_state.md R30). -/

namespace Sys2Proof.Machine

/-- `be32(b0, b1, b2, b3)`: a big-endian word (00_scope.md R13). -/
def be32 (b0 b1 b2 b3 : Byte) : Word := b0 ++ b1 ++ b2 ++ b3

/-- Nibble `i` of a word, bits 4i+3..4i; nibble 0 is the least significant (00_scope.md R13). -/
def nibble (x : Word) (i : Nat) : Nibble := x.extractLsb' (4 * i) 4

/-- Byte `j` of a word in stream order, `j` in 0..3: byte 0 is bits 31..24 (20_memory.md R60). -/
def wordByte (w : Word) (j : Nat) : Byte := w.extractLsb' (24 - 8 * j) 8

/-- Byte `j` of a block, `j` in 0..7: `byte(blk, j) = blk[63-8j : 56-8j]` (43_padding.md section 2, 20_memory.md R60). -/
def blockByte (blk : Block) (j : Nat) : Byte := blk.extractLsb' (56 - 8 * j) 8

/-- The block whose byte `j` is `f j` (20_memory.md R60). -/
def blockOfBytes (f : Nat → Byte) : Block :=
  be32 (f 0) (f 1) (f 2) (f 3) ++ be32 (f 4) (f 5) (f 6) (f 7)

/-- The half `blk[63:32]`, the document's `high` (20_memory.md R60). -/
def blockHi (blk : Block) : Word := blk.extractLsb' 32 32

/-- The half `blk[31:0]`, the document's `low` (20_memory.md R60). -/
def blockLo (blk : Block) : Word := blk.extractLsb' 0 32

/-- `KEY_LO ++ KEY_HI[31:8]`, the 56 key bits in key-byte order (10_state.md R25). -/
def keyOperand (keyLo keyHi : Word) : BitVec 56 := keyLo ++ keyHi.extractLsb' 8 24

/-- Byte `j` of the latched key, `key[j] = L_KEY[55-8j : 48-8j]` for `j` in 0..6 (40_key_schedule.md R110). -/
def keyByte (lKey : BitVec 56) (j : Nat) : Byte := lKey.extractLsb' (48 - 8 * j) 8

/-- `zext_32(v[KEY_ID_BITS-1:0])`: what KEY_ID holds of a written word (10_state.md R30, 45_bus_control.md R231). -/
def keyIdField (keyIdBits : Nat) (v : Word) : Word := BitVec.ofNat 32 (v.toNat % 2 ^ keyIdBits)

/-- `zext_32(v[0])`: what CFG holds of a written word (10_state.md R42, 45_bus_control.md R231). -/
def cfgField (v : Word) : Word := (v.extractLsb' 0 1).setWidth 32

/-- `v[31:8] ++ 0x00`: what KEY_HI holds of a written word (10_state.md R27, 45_bus_control.md R231). -/
def keyHiField (v : Word) : Word := v.extractLsb' 8 24 ++ (0 : Byte)

end Sys2Proof.Machine
end

