-- ==== Sys2Proof/Machine/Ops.lean ====
section
/-! DEFINITION. The shared operations: the end of a command (42_feistel.md R170), the usage table (44_usage.md R213), command acceptance
(45_bus_control.md R233, R234), the register map (20_memory.md R64) and reset (70_reset_and_hazards.md R280).
The block takes no exceptions (60_exceptions.md R255, R256): an error ends its command through `raise`, which is `finish`. -/

namespace Sys2Proof.Machine

/-- `finish(code)`, the end of every command, in the engine step that runs it (42_feistel.md R170). -/
def finish (code : ResultCode) (s : State) : State :=
  { s with
    result := code
    done := true
    warn := s.warn || decide (code = .warn)
    st := .idle }

/-- `raise E`: `finish(E)` after the raising rule's own writes (42_feistel.md R170, 60_exceptions.md R255). -/
def raise (code : ResultCode) (s : State) : State := finish code s

/-- Writes the output block (10_state.md R31). -/
def writeDout (hi lo : Word) (s : State) : State := { s with doutHi := hi, doutLo := lo }

/-- `USAGE_T[j]` (10_state.md R46). An entry outside the table reads 0; no reachable state asks for one (log 9). -/
def usageAt (s : State) (j : Word) : Word := s.usageT.getD j.toNat 0

/-- `USAGE_T[j] <- v` (10_state.md R46). -/
def setUsage (j : Word) (v : Word) (s : State) : State := { s with usageT := s.usageT.set j.toNat v }

/-- `charge(j)`: the total after the charge is an exact integer; above the ceiling there is no charge (`none`, the caller raises
E_EXHAUSTED), otherwise the total is stored (44_usage.md R213). -/
def charge (j : Word) (s : State) : Option State :=
  if s.params.ceilBytes < (usageAt s j).toNat + Config.chargeBytes then none
  else some (setUsage j (BitVec.ofNat 32 ((usageAt s j).toNat + Config.chargeBytes)) s)

/-- Does `USAGE_T[j]` exceed the soft threshold (44_usage.md R211, R214)? -/
def usageWarns (s : State) (j : Word) : Bool := decide (s.params.warnBytes < (usageAt s j).toNat)

/-- Acceptance of a command word: the operands are latched as they stand before this write (45_bus_control.md R233). -/
def acceptCmd (v : Word) (s : State) : State :=
  { s with
    lCmd := v
    lKey := keyOperand s.keyLo s.keyHi
    lRkey := s.rkey
    lKeyid := keyIdField s.params.keyIdBits s.keyId
    nHi := s.dinHi
    nLo := s.dinLo
    done := false
    st := .start }

/-- A write to CMD: accepted when the engine is idle, dropped with OVR when it is busy (45_bus_control.md R233, R234). -/
def cmdWrite (v : Word) (s : State) : State :=
  if s.st = .idle then acceptCmd v s else { s with ovr := true }

/-- The registers of the window, by the names of 20_memory.md R64. -/
inductive Reg where
  | cmd | status | keyLo | keyHi | dinHi | dinLo | doutHi | doutLo | rkey | keyId | usage | uplen | cfg | id
  | kx (i : Fin 8)
deriving DecidableEq, Repr

/-- The word index of a register (20_memory.md R64); its byte offset `off(REG)` is four times this (30_encoding.md R97). -/
def Reg.addr : Reg → BitVec 6
  | .cmd => 0
  | .status => 1
  | .keyLo => 2
  | .keyHi => 3
  | .dinHi => 4
  | .dinLo => 5
  | .doutHi => 6
  | .doutLo => 7
  | .rkey => 8
  | .keyId => 9
  | .usage => 10
  | .uplen => 11
  | .cfg => 12
  | .id => 13
  | .kx i => 16 + BitVec.ofNat 6 i.val

/-- The register at a word index; `none` for the reserved words 14–15 and 24–63 (20_memory.md R64). -/
def regAt (addr : BitVec 6) : Option Reg :=
  match addr.toNat with
  | 0 => some .cmd
  | 1 => some .status
  | 2 => some .keyLo
  | 3 => some .keyHi
  | 4 => some .dinHi
  | 5 => some .dinLo
  | 6 => some .doutHi
  | 7 => some .doutLo
  | 8 => some .rkey
  | 9 => some .keyId
  | 10 => some .usage
  | 11 => some .uplen
  | 12 => some .cfg
  | 13 => some .id
  | 16 => some (.kx 0)
  | 17 => some (.kx 1)
  | 18 => some (.kx 2)
  | 19 => some (.kx 3)
  | 20 => some (.kx 4)
  | 21 => some (.kx 5)
  | 22 => some (.kx 6)
  | 23 => some (.kx 7)
  | _ => none

/-- The value a read of a register returns (45_bus_control.md R232). -/
def readReg (s : State) : Reg → Word
  | .cmd => 0
  | .status => statusWord s
  | .keyLo => s.keyLo
  | .keyHi => s.keyHi
  | .dinHi => s.dinHi
  | .dinLo => s.dinLo
  | .doutHi => s.doutHi
  | .doutLo => s.doutLo
  | .rkey => s.rkey
  | .keyId => s.keyId
  | .usage => usageAt s s.keyId
  | .uplen => s.uplen
  | .cfg => s.cfg
  | .id => Config.idValue
  | .kx i => s.k[i]

/-- The effect of a write to a register (45_bus_control.md R231); a write to an RO register has none (20_memory.md R65). -/
def writeReg (v : Word) (s : State) : Reg → State
  | .cmd => cmdWrite v s
  | .status => statusWrite v s
  | .keyLo => { s with keyLo := v }
  | .keyHi => { s with keyHi := keyHiField v }
  | .dinHi => { s with dinHi := v }
  | .dinLo => { s with dinLo := v }
  | .doutHi => s
  | .doutLo => s
  | .rkey => { s with rkey := v }
  | .keyId => { s with keyId := keyIdField s.params.keyIdBits v }
  | .usage => s
  | .uplen => s
  | .cfg => { s with cfg := cfgField v }
  | .id => s
  | .kx _ => s

/-- A read of a word of the window; reserved words read 0 (20_memory.md R65). -/
def readWord (s : State) (addr : BitVec 6) : Word :=
  match regAt addr with
  | some reg => readReg s reg
  | none => 0

/-- A write to a word of the window; a write to a reserved word has no effect (20_memory.md R65). -/
def writeWord (addr : BitVec 6) (v : Word) (s : State) : State :=
  match regAt addr with
  | some reg => writeReg v s reg
  | none => s

/-- What a cycle with `rst = 1` leaves: every register, latch and STATUS field at its reset value, the ROM and the parameters as
they were; a read in that cycle returns 0 (70_reset_and_hazards.md R280, R281). The host's coming inputs are the host's own. -/
def applyReset (p : PortIn) (s : State) : State :=
  { State.resetOf s.sbox s.params with
    inputs := s.inputs
    rdata := if p.sel && !p.we then some 0 else none }

end Sys2Proof.Machine
end

