-- ==== Sys2Proof/Machine/Bus.lean ====
section
/-! DEFINITION. The bus transactions BUSWR and BUSRD (45_bus_control.md R231, R232), the command NOP (R235), the end of an illegal
word (30_encoding.md R93), and the host's byte addresses (20_memory.md R63, R68). -/

namespace Sys2Proof.Machine

/-- NOP (45_bus_control.md R235). -/
def execNop (s : State) : StepResult := .next (finish .ok s)

/-- BUSWR (45_bus_control.md R231). -/
def execBuswr (addr : BitVec 6) (wdata : Word) (s : State) : StepResult := .next (writeWord addr wdata s)

/-- BUSRD (45_bus_control.md R232): the word appears on `rdata`; nothing else changes (20_memory.md R66). -/
def execBusrd (addr : BitVec 6) (s : State) : StepResult := .next { s with rdata := some (readWord s addr) }

/-- The START step of an accepted word that is no command: `raise E_ILLEGAL` and nothing else (30_encoding.md R93). -/
def execIllegal (s : State) : StepResult := .next (raise .eIllegal s)

/-- The word index of a byte address in a window at `base`; none for an address the window does not have or that is no multiple of
four, the only spellings R63 defines (20_memory.md R63, R68; log 11). -/
def wordIndex (base a : Nat) : Option (BitVec 6) :=
  if base ≤ a ∧ a - base < 0x100 ∧ (a - base) % 4 = 0 then some (BitVec.ofNat 6 ((a - base) / 4)) else none

/-- `MemWrite(a, 4, v)` as a bus transaction (00_scope.md R15, 45_bus_control.md R231). -/
def memWrite (base a : Nat) (v : Word) : Option Instr := (wordIndex base a).map fun addr => .buswr addr v

/-- `MemRead(a, 4)` as a bus transaction (00_scope.md R15, 45_bus_control.md R232). -/
def memRead (base a : Nat) : Option Instr := (wordIndex base a).map fun addr => .busrd addr

end Sys2Proof.Machine
end

