-- ==== Sys2Proof/Machine/KeySchedule.lean ====
section
/-! DEFINITION. The key schedule (40_key_schedule.md): the expansion of the 56-bit key, the round-key selector, and KEYLOAD. -/

namespace Sys2Proof.Machine

/-- The 56 bits of a key of seven bytes, `key[0]` first (R110, 10_state.md R25). -/
def masterKey (key : List Byte) : BitVec 56 :=
  key.getD 0 0 ++ key.getD 1 0 ++ key.getD 2 0 ++ key.getD 3 0 ++ key.getD 4 0 ++ key.getD 5 0 ++ key.getD 6 0

/-- Byte `j` of the expanded byte string: `e[j] = key[j mod 7]` for `j` in 0..31 (R111). -/
def expandedByte (lKey : BitVec 56) (j : Nat) : Byte := keyByte lKey (j % 7)

/-- `K_i(key) = be32(e[4i], e[4i+1], e[4i+2], e[4i+3])` (R111). -/
def expandedWord (lKey : BitVec 56) (i : Nat) : Word :=
  be32 (expandedByte lKey (4 * i)) (expandedByte lKey (4 * i + 1)) (expandedByte lKey (4 * i + 2))
    (expandedByte lKey (4 * i + 3))

/-- The eight words `K[0..7]` of a key (R111). -/
def expandKey (lKey : BitVec 56) : Vector Word 8 := Vector.ofFn fun i => expandedWord lKey i.val

/-- `kidx(i)`: which word of `K` is entry `i` of the schedule, for `i` in 0..31 (R114). -/
def kidx (i : Nat) : Fin 8 :=
  if h : i < 24 then ⟨i % 8, by omega⟩ else ⟨31 - i, by omega⟩

/-- `sched(i) = K[kidx(i)]`, for `i` in 0..31; a multiplexer, no storage (R114). -/
def sched (k : Vector Word 8) (i : Nat) : Word := k[kidx i]

/-- The round key of round `r` in ENC (R115). -/
def encKey (k : Vector Word 8) (r : Nat) : Word := sched k r

/-- The round key of round `r` in DEC: the schedule in reverse (R115). -/
def decKey (k : Vector Word 8) (r : Nat) : Word := sched k (31 - r)

/-- KEYLOAD (R116): with KLEN = 7 it writes all of `K` and sets KEYVALID (R112), with any other KLEN it clears KEYVALID and raises
E_KEYLEN, leaving `K` (R113). -/
def execKeyload (klen : Nat) (s : State) : StepResult :=
  if klen ≠ 7 then .next (raise .eKeylen { s with keyvalid := false })
  else .next (finish .ok { s with k := expandKey s.lKey, keyvalid := true })

end Sys2Proof.Machine
end

