-- ==== Sys2Proof/Machine/Transform.lean ====
section
/-! DEFINITION. The S-box layer, the adder, the rotator and the round function (41_transform_round.md), and the two diagnostic
commands XFORM_T and ROUND_G. Every function takes the S-box ROM as an argument (00_scope.md R11). -/

namespace Sys2Proof.Machine

/-- `S(i, v) = SBOX[i][v]` (R132). -/
def sboxAt (sb : SBox) (i : Fin 8) (v : Nibble) : Nibble := (sb[i])[v.toFin]

/-- The nonlinear transform `T`: nibble `i` goes through table `i`, in place (R133). -/
def xform (sb : SBox) (x : Word) : Word :=
  sboxAt sb 7 (nibble x 7) ++ sboxAt sb 6 (nibble x 6) ++ sboxAt sb 5 (nibble x 5) ++ sboxAt sb 4 (nibble x 4) ++
    sboxAt sb 3 (nibble x 3) ++ sboxAt sb 2 (nibble x 2) ++ sboxAt sb 1 (nibble x 1) ++ sboxAt sb 0 (nibble x 0)

/-- `a +32 b = (a + b) mod 2^32`; the carry is recorded nowhere (R134). -/
def add32 (a b : Word) : Word := a + b

/-- `rotl11(x) = x[20:0] ++ x[31:21]` (R135). -/
def rotl11 (x : Word) : Word := x.extractLsb' 0 21 ++ x.extractLsb' 21 11

/-- The round function `g(half, k) = rotl11(T(half +32 k))` (R136). -/
def roundFn (sb : SBox) (half k : Word) : Word := rotl11 (xform sb (add32 half k))

/-- XFORM_T (R143). -/
def execXformT (s : State) : StepResult := .next (finish .ok (writeDout 0 (xform s.sbox s.nLo) s))

/-- ROUND_G (R144). -/
def execRoundG (s : State) : StepResult := .next (finish .ok (writeDout 0 (roundFn s.sbox s.nLo s.lRkey) s))

end Sys2Proof.Machine
end

