-- ==== Sys2Proof/Machine/Feistel.lean ====
section
/-! DEFINITION. The Feistel engine (42_feistel.md): the pure block functions, the iteration controller's START and ROUNDS steps, and
the commands ENC and DEC. -/

namespace Sys2Proof.Machine

/-- `step(hi, lo, k)`: one of rounds 0..30, with the swap (R161). -/
def swapRound (sb : SBox) (k : Word) (p : Word × Word) : Word × Word := (p.2, p.1 ^^^ roundFn sb p.2 k)

/-- `last(hi, lo, k)`: round 31, without the swap (R161, R162). -/
def lastRound (sb : SBox) (k : Word) (p : Word × Word) : Word × Word := (p.1 ^^^ roundFn sb p.2 k, p.2)

/-- Rounds `0 .. n-1`, each with the swap, round `r` under `ks r` (R161). -/
def swapRounds (sb : SBox) (ks : Nat → Word) : Nat → Word × Word → Word × Word
  | 0, p => p
  | n + 1, p => swapRound sb (ks n) (swapRounds sb ks n p)

/-- `crypt(hi, lo, ks)` (R161). -/
def crypt (sb : SBox) (ks : Nat → Word) (p : Word × Word) : Word × Word :=
  lastRound sb (ks 31) (swapRounds sb ks 31 p)

/-- `E(blk, K)` on the two halves of the block (R161). -/
def encPair (sb : SBox) (k : Vector Word 8) (p : Word × Word) : Word × Word := crypt sb (encKey k) p

/-- `D(blk, K)` on the two halves of the block (R161). -/
def decPair (sb : SBox) (k : Vector Word 8) (p : Word × Word) : Word × Word := crypt sb (decKey k) p

/-- A function of the two halves as a function of the 64-bit block `h ++ l` (R160, R161). -/
def onBlock (f : Word × Word → Word × Word) (blk : Block) : Block :=
  (f (blockHi blk, blockLo blk)).1 ++ (f (blockHi blk, blockLo blk)).2

/-- `E(blk, K)`: `encrypt_block` (R161). -/
def encBlock (sb : SBox) (k : Vector Word 8) : Block → Block := onBlock (encPair sb k)

/-- `D(blk, K)`: `decrypt_block` (R161). -/
def decBlock (sb : SBox) (k : Vector Word 8) : Block → Block := onBlock (decPair sb k)

/-- The start of the rounds: `r <- 0`, `st <- ROUNDS` (R164). -/
def beginRounds (s : State) : State := { s with r := 0, st := .rounds }

/-- The START step of ENC, after the legality check: key, then charge, then the rounds begin (R164). -/
def encStart (s : State) : State :=
  if s.keyvalid = false then raise .eNokey s
  else
    match charge s.lKeyid s with
    | none => raise .eExhausted s
    | some t => beginRounds t

/-- The START step of DEC, after the legality check (R164). -/
def decStart (s : State) : State :=
  if s.keyvalid = false then raise .eNokey s else beginRounds s

/-- One ROUNDS step under round key `rk` (R166); the step with `r = 31` does not swap, writes DOUT and finishes with `code` in the
same step (R167). All reads are of the state before the step. -/
def roundsStep (rk : Word) (code : ResultCode) (s : State) : State :=
  if s.r.toNat < 31 then
    { s with nHi := s.nLo, nLo := s.nHi ^^^ roundFn s.sbox s.nLo rk, r := s.r + 1 }
  else
    finish code
      (writeDout (s.nHi ^^^ roundFn s.sbox s.nLo rk) s.nLo { s with nHi := s.nHi ^^^ roundFn s.sbox s.nLo rk })

/-- The code ENC finishes with (R167): WARN if `USAGE_T[L_KEYID] > WARN_BYTES`. -/
def encCode (s : State) : ResultCode := if usageWarns s s.lKeyid then .warn else .ok

/-- ENC (R171): the engine step of an ENC in flight, a ROUNDS step if `st = ROUNDS` (R165–R167) and its START step otherwise
(R164; log 7). -/
def execEnc (s : State) : StepResult :=
  match s.st with
  | .rounds => .next (roundsStep (encKey s.k s.r.toNat) (encCode s) s)
  | .start => .next (encStart s)
  | .idle => .next (encStart s)

/-- DEC (R172): the engine step of a DEC in flight, a ROUNDS step if `st = ROUNDS` (R165–R167) and its START step otherwise
(R164; log 7). -/
def execDec (s : State) : StepResult :=
  match s.st with
  | .rounds => .next (roundsStep (decKey s.k s.r.toNat) .ok s)
  | .start => .next (decStart s)
  | .idle => .next (decStart s)

end Sys2Proof.Machine
end

