-- ==== Sys2Proof/Machine/Padding.lean ====
section
/-! DEFINITION. The padding codec (43_padding.md): the block-level functions and the commands PAD and UNPAD. -/

namespace Sys2Proof.Machine

/-- `padblk(blk, n)`, `n` in 0..7: the first `n` bytes, the marker 0x80, zeros (R194). -/
def padblk (blk : Block) (n : Nat) : Block :=
  blockOfBytes fun j => if j < n then blockByte blk j else if j = n then 0x80 else 0x00

/-- `max { j < n | byte(blk, j) != 0x00 }`, none if there is none (R194). -/
def lastNonzero (blk : Block) : Nat → Option Nat
  | 0 => none
  | n + 1 => if blockByte blk n ≠ 0x00 then some n else lastNonzero blk n

/-- `unpadblk(blk)`: the code and the number of leading bytes to keep (R194). -/
def unpadblk (blk : Block) : ResultCode × Nat :=
  match lastNonzero blk 8 with
  | none => (.padAllzero, 0)
  | some p => if blockByte blk p = 0x80 then (.ok, p) else (.eBadpad, 8)

/-- PAD (R196). -/
def execPad (padn : Nat) (s : State) : StepResult :=
  .next (finish .ok (writeDout (blockHi (padblk (s.nHi ++ s.nLo) padn)) (blockLo (padblk (s.nHi ++ s.nLo) padn)) s))

/-- UNPAD (R197). -/
def execUnpad (s : State) : StepResult :=
  .next (finish (unpadblk (s.nHi ++ s.nLo)).1 { s with uplen := BitVec.ofNat 32 (unpadblk (s.nHi ++ s.nLo)).2 })

end Sys2Proof.Machine
end

