-- ==== Sys2Proof/Machine/Dispatch.lean ====
section
/-! DEFINITION. Which meaning each instruction has. For a command this is the engine step of that command, for a bus transaction the
host's part of a cycle; Machine/Cycle.lean says when each runs. -/

namespace Sys2Proof.Machine

def exec (i : Instr) (s : State) : Host.Outcome State Fault Refusal :=
  match i with
  | .nop => Sys2Proof.Machine.execNop s
  | .keyload klen => Sys2Proof.Machine.execKeyload klen s
  | .enc => Sys2Proof.Machine.execEnc s
  | .dec => Sys2Proof.Machine.execDec s
  | .pad padn => Sys2Proof.Machine.execPad padn s
  | .unpad => Sys2Proof.Machine.execUnpad s
  | .xformT => Sys2Proof.Machine.execXformT s
  | .roundG => Sys2Proof.Machine.execRoundG s
  | .buswr addr wdata => Sys2Proof.Machine.execBuswr addr wdata s
  | .busrd addr => Sys2Proof.Machine.execBusrd addr s

end Sys2Proof.Machine
end

