-- ==== Sys2Proof/Machine/Cycle.lean ====
section
/-! DEFINITION. One clock cycle (20_memory.md R72, 60_exceptions.md R254): reset, else the host's transaction and then the engine's
step, with the instruction each of them fetches: the host's from the ports (30_encoding.md R100), the engine's from L_CMD. -/

namespace Sys2Proof.Machine

/-- The transaction on the ports of a cycle with `sel = 1` (30_encoding.md R100). -/
def PortIn.instr (p : PortIn) : Instr := decodeBus (busPattern p.we p.addr) p.wdata

/-- The host's part of a cycle (20_memory.md R72, part 1). -/
def hostPhase (p : PortIn) (s : State) : StepResult := if p.sel then exec p.instr s else .next s

/-- The engine's step: it decodes L_CMD and runs that command; a word that is no command ends E_ILLEGAL (30_encoding.md R93,
45_bus_control.md R233). It is taken only while `st ≠ IDLE` (42_feistel.md R163). -/
def engineStep (s : State) : StepResult :=
  match decodeCmd s.lCmd with
  | .ok i => exec i s
  | .error _ => execIllegal s

/-- The engine's part of a cycle, in the state the host's transaction left: taken if the engine was busy at the start of the cycle
(20_memory.md R72, part 2). -/
def enginePhase (busyAtStart : Bool) (s : State) : StepResult := if busyAtStart then engineStep s else .next s

/-- The `rdata` port at the start of a cycle, before any read in it (20_memory.md R62; log 2). -/
def clearRdata (s : State) : State := { s with rdata := none }

/-- One clock cycle with port values `p` (20_memory.md R72). -/
def clockCycle (p : PortIn) (s : State) : StepResult :=
  if p.rst then .next (applyReset p s)
  else
    match hostPhase p (clearRdata s) with
    | .next t => enginePhase s.busy t
    | .fault f => .fault f
    | .refused e => .refused e

/-- The port values of the next cycle; a host that has no more to do drives `sel = 0` and `rst = 0` (log 1). -/
def nextInput (s : State) : PortIn := s.inputs.headD PortIn.idle

/-- The state once the next cycle's port values are taken from the host. -/
def takeInput (s : State) : State := { s with inputs := s.inputs.tail }

/-- The state in which the accepted command word `v` is due: as if the host had written it to CMD in the cycle before, and does
nothing in the next one (45_bus_control.md R233; log 4). -/
def placeCommand (v : Word) (s : State) : State :=
  { acceptCmd v s with inputs := PortIn.idle :: s.inputs }

/-- The state in which the transaction `we ++ addr` is on the ports of the next cycle, with zero data (30_encoding.md R100; log 4). -/
def placeTransaction (weAddr : BitVec 7) (s : State) : State :=
  { s with inputs := ⟨false, true, weAddr.getLsbD 6, weAddr.extractLsb' 0 6, 0⟩ :: s.inputs }

end Sys2Proof.Machine
end

