-- ==== Sys2Proof/Machine/Step.lean ====
section
/-! DEFINITION. The step of the machine: one clock cycle under the port values the host drives next (20_memory.md R72; log 3). -/

namespace Sys2Proof.Machine

/-- One step: the next clock cycle. -/
def step (s : State) : Host.Outcome State Fault Refusal := clockCycle (nextInput s) (takeInput s)

/-- The state whose very next step runs the instruction of an opcode-table row: a command is placed as an accepted command, a bus
transaction on the ports of the next cycle (log 4). -/
def State.withFetchWord (s : State) (nbits w : Nat) : State :=
  if nbits ≤ 8 then placeTransaction (BitVec.ofNat 7 w) s else placeCommand (BitVec.ofNat 32 w) s

end Sys2Proof.Machine
end

