-- ==== Sys2Proof/Machine/HostProgram.lean ====
section
/-! DEFINITION. The host's assembly language as bus transactions on the machine (30_encoding.md R97, R98). A host program chooses
each transaction after it has seen the answers to the earlier ones, so it drives cycles itself and not through `State.inputs`. -/

namespace Sys2Proof.Machine

/-- The state after a cycle. Every cycle answers a next state (Laws: `clockCycle_eq_next`); the other arms are never taken. -/
def afterCycle (p : PortIn) (s : State) : State :=
  match clockCycle p s with
  | .next t => t
  | .fault _ => s
  | .refused _ => s

/-- The two statements of the host's language (R97). -/
inductive HostStmt where
  /-- `wr REG, imm32`. -/
  | wr (reg : Reg) (imm : Word)
  /-- `rd REG`. -/
  | rd (reg : Reg)
deriving DecidableEq, Repr

/-- The byte offset `off(REG)` of a register in the window (R97, 20_memory.md R64). -/
def Reg.off (reg : Reg) : Nat := 4 * reg.addr.toNat

/-- A statement as the memory access it stands for, at the platform's `base` (R97): `MemWrite(BASE + off(REG), 4, imm32)` or
`MemRead(BASE + off(REG), 4)`. -/
def HostStmt.access (base : Nat) : HostStmt → Option Instr
  | .wr reg imm => memWrite base (base + reg.off) imm
  | .rd reg => memRead base (base + reg.off)

/-- The port values of a statement's cycle (R100). -/
def HostStmt.port : HostStmt → PortIn
  | .wr reg imm => PortIn.write reg.addr imm
  | .rd reg => PortIn.read reg.addr

/-- Runs statements in order, one cycle each (20_memory.md R70). -/
def runStmts : List HostStmt → State → State
  | [], s => s
  | c :: cs, s => runStmts cs (afterCycle c.port s)

/-- `wr REG, imm32`. -/
def hostWr (reg : Reg) (imm : Word) (s : State) : State := afterCycle (HostStmt.wr reg imm).port s

/-- `rd REG -> v`: the value read and the state after the read's cycle. -/
def hostRd (reg : Reg) (s : State) : Word × State :=
  ((afterCycle (HostStmt.rd reg).port s).rdata.getD 0, afterCycle (HostStmt.rd reg).port s)

/-- `cmd OP`: `wr CMD, OP` (R98). -/
def cmdStmts (word : Word) : List HostStmt := [.wr .cmd word]

/-- The word of `cmd KEYLOAD klen=n`: `(n << 4) | 0x1` (R98). -/
def keyloadWord (n : Nat) : Word := BitVec.ofNat 32 n <<< 4 ||| 0x1

/-- The word of `cmd PAD padn=n`: `(n << 8) | 0x4` (R98). -/
def padWord (n : Nat) : Word := BitVec.ofNat 32 n <<< 8 ||| 0x4

/-- `ldkey k0 … k6` (R98). -/
def ldkeyStmts (k0 k1 k2 k3 k4 k5 k6 : Byte) : List HostStmt :=
  [.wr .keyLo (be32 k0 k1 k2 k3), .wr .keyHi (be32 k4 k5 k6 0)]

/-- `ldblk hi, lo` (R98). -/
def ldblkStmts (hi lo : Word) : List HostStmt := [.wr .dinHi hi, .wr .dinLo lo]

/-- `clrst`: clears DONE, WARN and OVR (R98). -/
def clrstStmts : List HostStmt := [.wr .status 0x00030002]

/-- `stblk -> h, l` (R98): the two words and the state after both reads. -/
def stblk (s : State) : (Word × Word) × State :=
  (((hostRd .doutHi s).1, (hostRd .doutLo (hostRd .doutHi s).2).1), (hostRd .doutLo (hostRd .doutHi s).2).2)

/-- `mvblk` (R98): DOUT is moved to DIN, half by half. -/
def mvblk (s : State) : State :=
  hostWr .dinLo (hostRd .doutLo (hostWr .dinHi (hostRd .doutHi s).1 (hostRd .doutHi s).2)).1
    (hostRd .doutLo (hostWr .dinHi (hostRd .doutHi s).1 (hostRd .doutHi s).2)).2

/-- `wait` (R98): reads STATUS until BUSY = 0, at most `fuel` times; answers the last STATUS read. `none` when the polls run out. -/
def hostWait : Nat → State → Option (Word × State)
  | 0, _ => none
  | fuel + 1, s =>
    if (hostRd .status s).1.getLsbD 0 then hostWait fuel (hostRd .status s).2 else some (hostRd .status s)

/-- How often a `wait` polls at most: 34 for an ENC or DEC that passes START, 2 for everything else (70_reset_and_hazards.md R294;
log 12). -/
def pollLimit : Nat := 34

/-- `cmd OP ; wait`: the STATUS word that ended the wait and the state after it. -/
def hostCmd (word : Word) (s : State) : Option (Word × State) := hostWait pollLimit (runStmts (cmdStmts word) s)

/-- Field RESULT of a STATUS word the host has read (10_state.md R34). -/
def statusResult (status : Word) : BitVec 4 := status.extractLsb' 4 4

end Sys2Proof.Machine
end

