-- ==== Sys2Proof/Machine/Message.lean ====
section
/-! DEFINITION. Messages: the padding of byte sequences (43_padding.md R190–R193, R195) and the host's ECB procedures over the block
commands (45_bus_control.md R240, R241). The block never performs them; they are what a claim about messages means. -/

namespace Sys2Proof.Machine

/-- `pad(d)`: the marker 0x80 and zeros up to the next multiple of eight, always (43_padding.md R191). -/
def padMsg (d : List Byte) : List Byte := d ++ [0x80] ++ List.replicate (7 - d.length % 8) 0x00

/-- `unpad(d)`: the message before the last non-zero byte if that byte is 0x80; otherwise `d` unmodified, with the signal
UnrecognizedPadding as the second component (43_padding.md R192). -/
def unpadMsg (d : List Byte) : List Byte × Bool :=
  match d.reverse.dropWhile fun b => b = 0x00 with
  | [] => (d, true)
  | b :: before => if b = 0x80 then (before.reverse, false) else (d, true)

/-- The bytes of a block in stream order (20_memory.md R60). -/
def pairBytes (p : Word × Word) : List Byte :=
  [wordByte p.1 0, wordByte p.1 1, wordByte p.1 2, wordByte p.1 3, wordByte p.2 0, wordByte p.2 1, wordByte p.2 2, wordByte p.2 3]

/-- The bytes of a sequence of blocks, in order (20_memory.md R76). -/
def blocksBytes (ps : List (Word × Word)) : List Byte := ps.flatMap pairBytes

/-- The whole blocks of a byte sequence, as DIN words, and the bytes left over (20_memory.md R60, 45_bus_control.md R240). -/
def splitBlocks : List Byte → List (Word × Word) × List Byte
  | b0 :: b1 :: b2 :: b3 :: b4 :: b5 :: b6 :: b7 :: rest =>
    ((be32 b0 b1 b2 b3, be32 b4 b5 b6 b7) :: (splitBlocks rest).1, (splitBlocks rest).2)
  | short => ([], short)

/-- `E` applied block by block to `pad(d)`: what `encrypt_message` returns (45_bus_control.md R240). -/
def ecbEncrypt (sb : SBox) (k : Vector Word 8) (d : List Byte) : List Byte :=
  blocksBytes ((splitBlocks (padMsg d)).1.map (encPair sb k))

/-- `D` applied block by block: the bytes `P` of `decrypt_message` before the unpad scan (45_bus_control.md R241). -/
def ecbDecrypt (sb : SBox) (k : Vector Word 8) (c : List Byte) : List Byte :=
  blocksBytes ((splitBlocks c).1.map (decPair sb k))

/-- The block-by-block unpad scan of R195: `unpadblk` on the last block, then on the one before it while the answer is
PAD_ALLZERO. The blocks come last first. -/
def unpadBlocks (whole : List Byte) : List (Word × Word) → List Byte × Bool
  | [] => (whole, true)
  | p :: before =>
    match unpadblk (p.1 ++ p.2) with
    | (.ok, len) => (blocksBytes before.reverse ++ (pairBytes p).take len, false)
    | (.padAllzero, _) => unpadBlocks whole before
    | _ => (whole, true)

/-- Why a host procedure fails (60_exceptions.md R251). -/
inductive HostError where
  /-- `InvalidKeyLength`: KEYLOAD finished E_KEYLEN (45_bus_control.md R240). -/
  | invalidKeyLength
  /-- `KeyExhausted`: an ENC finished E_EXHAUSTED (45_bus_control.md R240). -/
  | keyExhausted
  /-- `MisalignedCiphertext`: strict decryption of a partial block (45_bus_control.md R241). -/
  | misalignedCiphertext
  /-- The polls of a `wait` ran out; never on this machine (70_reset_and_hazards.md R293; log 12). -/
  | pollsRanOut
deriving DecidableEq, Repr

/-- `DEC_TAIL`, the host parameter (92_eei_decisions.md D42; log 13); the default is `strict`. -/
inductive DecTail where
  | strict
  | permissive
deriving DecidableEq, Repr

/-- `KLEN` for a key of `len` bytes: the length itself up to 14, else 15 (40_key_schedule.md R113). -/
def keyFileKlen (len : Nat) : Nat := min len 15

/-- `ldkey key[0..6]` (R98); a byte the host did not read is written as 0 (log 13). -/
def ldkey (key : List Byte) (s : State) : State :=
  runStmts (ldkeyStmts (key.getD 0 0) (key.getD 1 0) (key.getD 2 0) (key.getD 3 0) (key.getD 4 0) (key.getD 5 0) (key.getD 6 0)) s

/-- `ldblk be32(b0..b3), be32(b4..b7)`. -/
def ldblk (p : Word × Word) (s : State) : State := runStmts (ldblkStmts p.1 p.2) s

/-- `cmd ENC ; wait`, the check for E_EXHAUSTED and `stblk`: the ciphertext block and whether RESULT was WARN (45_bus_control.md
R240). The operand is in DIN. -/
def encryptDin (s : State) : Except HostError ((Word × Word) × Bool) × State :=
  match hostCmd 0x2 s with
  | none => (.error .pollsRanOut, s)
  | some (status, t) =>
    if statusResult status = ResultCode.eExhausted.code then (.error .keyExhausted, t)
    else (.ok ((stblk t).1, decide (statusResult status = ResultCode.warn.code)), (stblk t).2)

/-- The loop of `encrypt_message` over the full blocks, in order (45_bus_control.md R240). -/
def encryptBlocks : List (Word × Word) → List (Word × Word) → Bool → State → Except HostError (List (Word × Word) × Bool) × State
  | [], out, warned, s => (.ok (out, warned), s)
  | p :: ps, out, warned, s =>
    match encryptDin (ldblk p s) with
    | (.error e, t) => (.error e, t)
    | (.ok (c, w), t) => encryptBlocks ps (out ++ [c]) (warned || w) t

/-- The tail bytes in block bytes 0..n-1, zeros after them (45_bus_control.md R240). -/
def tailBlock (rest : List Byte) : Word × Word :=
  (be32 (rest.getD 0 0) (rest.getD 1 0) (rest.getD 2 0) (rest.getD 3 0),
   be32 (rest.getD 4 0) (rest.getD 5 0) (rest.getD 6 0) (rest.getD 7 0))

/-- The last block of `encrypt_message`: PAD of the tail, `mvblk`, ENC (45_bus_control.md R240). -/
def encryptTail (rest : List Byte) (s : State) : Except HostError ((Word × Word) × Bool) × State :=
  match hostCmd (padWord rest.length) (ldblk (tailBlock rest) s) with
  | none => (.error .pollsRanOut, s)
  | some (_, t) => encryptDin (mvblk t)

/-- `encrypt_message(d, key, klen, id)` (45_bus_control.md R240): the ciphertext and the flag `warned`. On KeyExhausted no partial
ciphertext is returned. -/
def encryptMessage (d key : List Byte) (klen : Nat) (id : Word) (s : State) : Except HostError (List Byte × Bool) × State :=
  match hostCmd (keyloadWord klen) (ldkey key s) with
  | none => (.error .pollsRanOut, s)
  | some (status, t) =>
    if statusResult status = ResultCode.eKeylen.code then (.error .invalidKeyLength, t)
    else
      match encryptBlocks (splitBlocks d).1 [] false (hostWr .keyId id t) with
      | (.error e, u) => (.error e, u)
      | (.ok (out, warned), u) =>
        match encryptTail (splitBlocks d).2 u with
        | (.error e, v) => (.error e, v)
        | (.ok (c, w), v) => (.ok (blocksBytes (out ++ [c]), warned || w), v)

/-- The loop of `decrypt_message` over the blocks, in order (45_bus_control.md R241). -/
def decryptBlocks : List (Word × Word) → List (Word × Word) → State → Except HostError (List (Word × Word)) × State
  | [], out, s => (.ok out, s)
  | p :: ps, out, s =>
    match hostCmd 0x3 (ldblk p s) with
    | none => (.error .pollsRanOut, s)
    | some (_, t) => decryptBlocks ps (out ++ [(stblk t).1]) (stblk t).2

/-- The unpad scan of `decrypt_message` from the last block (45_bus_control.md R241): the plaintext and whether
UnrecognizedPadding is signalled. The blocks come last first. -/
def unpadScan (whole : List Byte) : List (Word × Word) → State → Except HostError (List Byte × Bool) × State
  | [], s => (.ok (whole, true), s)
  | p :: before, s =>
    match hostCmd 0x5 (ldblk p s) with
    | none => (.error .pollsRanOut, s)
    | some (status, t) =>
      if statusResult status = ResultCode.ok.code then
        (.ok (blocksBytes before.reverse ++ (pairBytes p).take (hostRd .uplen t).1.toNat, false), (hostRd .uplen t).2)
      else if statusResult status = ResultCode.eBadpad.code then (.ok (whole, true), t)
      else unpadScan whole before t

/-- `decrypt_message(c)`, with `K` loaded (45_bus_control.md R241): the plaintext and whether UnrecognizedPadding is signalled. The
trailing bytes of a misaligned ciphertext fail in strict mode and are appended after the unpadded text in permissive mode. -/
def decryptMessage (mode : DecTail) (c : List Byte) (s : State) : Except HostError (List Byte × Bool) × State :=
  if (splitBlocks c).2 ≠ [] ∧ mode = .strict then (.error .misalignedCiphertext, s)
  else
    match decryptBlocks (splitBlocks c).1 [] s with
    | (.error e, t) => (.error e, t)
    | (.ok ps, t) =>
      match unpadScan (blocksBytes ps) ps.reverse t with
      | (.error e, u) => (.error e, u)
      | (.ok (d, signal), u) => (.ok (d ++ (splitBlocks c).2, signal), u)

end Sys2Proof.Machine
end

