-- ==== Sys2Proof/Safety.lean ====
section
/-! DEFINITION. What claims about runs rest on: the invariants of 10_state.md R51 and the ones beside them that the same rules
give, and runs of the machine. -/

namespace Sys2Proof.Machine

/-- Each row of the ROM is a permutation of 0..15 (00_scope.md R11, 41_transform_round.md R130), said as: no two inputs of a row
have one output. -/
def SBoxLaw (sb : SBox) : Prop := ∀ (i : Fin 8) (v w : Nibble), sboxAt sb i v = sboxAt sb i w → v = w

/-- The invariants of the machine. -/
structure State.Inv (s : State) : Prop where
  /-- One counter per key identifier (10_state.md R46). -/
  usage_length : s.usageT.length = 2 ^ s.params.keyIdBits
  /-- "Every `USAGE_T[j]` is a multiple of `CHARGE_BYTES` (8) and at most `CEIL_BYTES`" (10_state.md R51). -/
  usage_legal : ∀ u ∈ s.usageT, u.toNat % Config.chargeBytes = 0 ∧ u.toNat ≤ s.params.ceilBytes
  /-- "`KEY_HI[7:0] = 0`" (10_state.md R51). -/
  keyHi_low : s.keyHi.extractLsb' 0 8 = 0
  /-- "`UPLEN ≤ 8`" (10_state.md R51). -/
  uplen_le : s.uplen.toNat ≤ 8
  /-- KEY_ID bits 31:KEY_ID_BITS read 0 (10_state.md R30). -/
  keyId_lt : s.keyId.toNat < 2 ^ s.params.keyIdBits
  /-- L_KEYID has KEY_ID_BITS bits (10_state.md R25). -/
  lKeyid_lt : s.lKeyid.toNat < 2 ^ s.params.keyIdBits
  /-- CFG bits 31:1 read 0 (10_state.md R42). -/
  cfg_lt : s.cfg.toNat < 2
  /-- "`st = ROUNDS` implies `L_CMD.OP ∈ {ENC, DEC}`" (10_state.md R51); the whole word is legal, since START checked it. -/
  rounds_cmd : s.st = .rounds → decodeCmd s.lCmd = .ok .enc ∨ decodeCmd s.lCmd = .ok .dec
  /-- The rounds run only with a key (42_feistel.md R164); KEYVALID does not change while they do (10_state.md R37). -/
  rounds_key : s.st = .rounds → s.keyvalid = true
  /-- "If `st ≠ IDLE` then STATUS.DONE = 0" (10_state.md R51). -/
  busy_not_done : s.st ≠ .idle → s.done = false
  /-- The ROM obeys the permutation law (41_transform_round.md R130). -/
  sbox_law : SBoxLaw s.sbox

/-- `n` clock cycles from `s`. -/
def runCycles (n : Nat) (s : State) : StepResult := Host.Core.run Sys2Proof.core n s

/-- No reset is asserted in the next `n` cycles, whatever else the host does in them. -/
def State.noReset (n : Nat) (s : State) : Prop := ∀ p ∈ s.inputs.take n, p.rst = false

end Sys2Proof.Machine
end

