-- ==== Sys2Proof/Certificates/Slice0/Obligations.lean ====
section
/-! DEFINITION. The statements for the provers. Each says what an instruction or the machine does by a rule of spec/. A conclusion of
the form `exec i s = .next { s with … }` is at once the result, the frame (every field not named is unchanged: registers, flags,
latches, counters, the ROM, the ports) and the completion of that instruction. -/

open Sys2Proof Sys2Proof.Machine

/-! ### Encoding -/

/-- Every operand bit of every well-formed instruction survives encoding and decoding (30_encoding.md R91, R92, R100). -/
def Obligations.DecodeInvertsEncode : Prop :=
  ∀ i : Instr, i.wf = true → decode (encode i) = .ok i

/-- A command word that decodes is the only encoding of its command (30_encoding.md R92, R95). -/
def Obligations.LegalCommandWordHasOneMeaning : Prop :=
  ∀ (c : Word) (i : Instr), decodeCmd c = .ok i → i.wf = true ∧ i.isCommand = true ∧ encode i = .cmd c

/-- R93: which words are illegal, that an idle engine accepts one all the same, that its START step finishes E_ILLEGAL and changes
nothing else, and that a busy engine drops it. -/
def Obligations.IllegalWordsAndTheirEnd : Prop :=
  ∀ c : Word,
    ((∀ i, decodeCmd c ≠ .ok i) ↔
      (8 ≤ (c.extractLsb' 0 4).toNat ∨ c.extractLsb' 11 21 ≠ 0 ∨ (c.extractLsb' 4 4 ≠ 0 ∧ c.extractLsb' 0 4 ≠ 1) ∨
        (c.extractLsb' 8 3 ≠ 0 ∧ c.extractLsb' 0 4 ≠ 4))) ∧
    ((∀ i, decodeCmd c ≠ .ok i) → ∀ s : State,
      (s.st = .idle → ∃ t, exec (.buswr 0 c) s = .next t ∧ t.st = .start ∧ t.lCmd = c) ∧
      (s.st = .start → s.lCmd = c → engineStep s = .next { s with result := .eIllegal, done := true, st := .idle }) ∧
      (s.st ≠ .idle → exec (.buswr 0 c) s = .next { s with ovr := true }))

/-- R99: the example words, legal and illegal, and how the KEYLOADs of another length end. A sanity statement. -/
def Obligations.ExampleWordsDecode : Prop :=
  decodeTableWord 32 0x00000000 = some .nop ∧
  decodeTableWord 32 0x00000071 = some (.keyload 7) ∧
  decodeTableWord 32 0x00000081 = some (.keyload 8) ∧
  decodeTableWord 32 0x00000001 = some (.keyload 0) ∧
  decodeTableWord 32 0x00000002 = some .enc ∧
  decodeTableWord 32 0x00000003 = some .dec ∧
  decodeTableWord 32 0x00000004 = some (.pad 0) ∧
  decodeTableWord 32 0x00000304 = some (.pad 3) ∧
  decodeTableWord 32 0x00000704 = some (.pad 7) ∧
  decodeTableWord 32 0x00000005 = some .unpad ∧
  decodeTableWord 32 0x00000006 = some .xformT ∧
  decodeTableWord 32 0x00000007 = some .roundG ∧
  (∀ c ∈ [0x00000008, 0x00000072, 0x00000102, 0x00000800], decodeTableWord 32 c = none) ∧
  ∀ s : State, ∀ klen ∈ [8, 0], ∃ t, exec (.keyload klen) s = .next t ∧ t.result = .eKeylen

/-- R100, R63, R68, R97: the ports of a cycle as a transaction, and byte addresses in the window as word indexes; no other spelling of
an address has a transaction; a host statement is the transaction of its register's address, and a cycle runs it.
Two clauses hold the model's own choices: that the other spellings, which R63 leaves undefined and a model may refuse, have no
transaction is log 11; that `rdata` holds nothing before the transaction is log 2. -/
def Obligations.BusTransactionsAreDecoded : Prop :=
  (∀ p : PortIn, p.instr = if p.we then .buswr p.addr p.wdata else .busrd p.addr) ∧
  (∀ (addr : BitVec 6) (v : Word),
    decodeBus (1#1 ++ addr) v = .buswr addr v ∧ decodeBus (0#1 ++ addr) v = .busrd addr) ∧
  (∀ (base a : Nat) (v : Word), a % 4 = 0 → a < 0x100 →
    memWrite base (base + a) v = some (.buswr (BitVec.ofNat 6 (a / 4)) v) ∧
    memRead base (base + a) = some (.busrd (BitVec.ofNat 6 (a / 4)))) ∧
  (∀ (base a : Nat) (v : Word), a % 4 ≠ 0 ∨ 0x100 ≤ a →
    memWrite base (base + a) v = none ∧ memRead base (base + a) = none) ∧
  ∀ (base : Nat) (c : HostStmt) (s : State), c.access base = some c.port.instr ∧
    (s.st = .idle → exec c.port.instr { s with rdata := none } = .next (afterCycle c.port s))

/-! ### The step -/

/-- 20_memory.md R72: in a cycle without reset, the host's transaction first, then the engine's step if it was busy at the start of
the cycle, each running the instruction its decoder reads.
Not R72's but the model's: that `rdata` holds nothing in a cycle without a read is log 2 (DESIGN CHOICE), and what the busy clauses say
of an engine in ROUNDS whose L_CMD holds no ENC or DEC, a state no run reaches, is log 8 (DEDUCED). -/
def Obligations.StepRunsTheDecodedInstructions : Prop :=
  ∀ (s : State) (p : PortIn) (rest : List PortIn), s.inputs = p :: rest → p.rst = false →
    (p.sel = false → s.st = .idle → step s = .next { s with inputs := rest, rdata := none }) ∧
    (p.sel = true → s.st = .idle → step s = exec p.instr { s with inputs := rest, rdata := none }) ∧
    (p.sel = false → s.st ≠ .idle → ∀ i, decodeCmd s.lCmd = .ok i →
      step s = exec i { s with inputs := rest, rdata := none }) ∧
    (p.sel = true → s.st ≠ .idle → ∀ i, decodeCmd s.lCmd = .ok i →
      ∃ t, exec p.instr { s with inputs := rest, rdata := none } = .next t ∧ step s = exec i t) ∧
    (p.sel = false → s.st ≠ .idle → (∀ i, decodeCmd s.lCmd ≠ .ok i) →
      step s = .next { s with inputs := rest, rdata := none, result := .eIllegal, done := true, st := .idle }) ∧
    (p.sel = true → s.st ≠ .idle → (∀ i, decodeCmd s.lCmd ≠ .ok i) →
      ∃ t, exec p.instr { s with inputs := rest, rdata := none } = .next t ∧
        step s = .next { t with result := .eIllegal, done := true, st := .idle })

/-- The model's choice (log 1): a host with no more port values drives a cycle without transaction and without reset. -/
def Obligations.HostWithNothingToDoIsAnIdleCycle : Prop :=
  ∀ s : State, s.inputs = [] → step s = step { s with inputs := [PortIn.idle] }

/-- The model's choice (log 4): the instruction placed by `withFetchWord` is the one the very next step runs. -/
def Obligations.PlacedInstructionRunsNext : Prop :=
  ∀ (s : State) (nbits w : Nat) (i : Instr), decodeTableWord nbits w = some i →
    (8 < nbits →
      step (s.withFetchWord nbits w) = exec i { acceptCmd (BitVec.ofNat 32 w) s with inputs := s.inputs, rdata := none }) ∧
    (nbits ≤ 8 → s.st = .idle → step (s.withFetchWord nbits w) = exec i { s with rdata := none })

/-- 70_reset_and_hazards.md R293: nothing stops the block, in any state, reachable or not. -/
def Obligations.NothingStopsTheBlock : Prop :=
  (∀ (i : Instr) (s : State), ∃ t, exec i s = .next t) ∧ ∀ s : State, ∃ t, step s = .next t

/-! ### Reset -/

/-- R50, R283: the state after reset, as the model's reset state and as what a cycle with `rst = 1` leaves. -/
def Obligations.ResetLeavesTheResetTable : Prop :=
  (∀ t : State,
    (t = State.reset ∨ ∃ (s : State) (p : PortIn) (rest : List PortIn), s.inputs = p :: rest ∧ p.rst = true ∧ step s = .next t) →
    (∀ i : Fin 8, t.k[i] = 0) ∧ t.nHi = 0 ∧ t.nLo = 0 ∧ t.r = 0 ∧ t.st = .idle ∧ t.lCmd = 0 ∧ t.lRkey = 0 ∧ t.lKey = 0 ∧
    t.lKeyid = 0 ∧ (∀ u ∈ t.usageT, u = 0) ∧ t.usageT.length = 2 ^ t.params.keyIdBits ∧ t.keyLo = 0 ∧ t.keyHi = 0 ∧
    t.dinHi = 0 ∧ t.dinLo = 0 ∧ t.rkey = 0 ∧ t.keyId = 0 ∧ t.cfg = 0 ∧ t.doutHi = 0 ∧ t.doutLo = 0 ∧ t.uplen = 0 ∧
    readWord t 1 = 0 ∧ readWord t 13 = 0x4D414701#32 ∧ irq t = false) ∧
  ∀ (s t : State) (p : PortIn) (rest : List PortIn), s.inputs = p :: rest → p.rst = true → step s = .next t → t.sbox = s.sbox

/-- R280: reset overrides the cycle. Every register takes its reset value; the transaction has no effect (a read returns 0) and the
engine takes no step, so nothing but the ROM, the parameters and the host's coming inputs is kept; a second cycle of reset changes
nothing more. That `rdata` holds nothing after a reset cycle without a read is no rule but the model's choice (log 2). -/
def Obligations.ResetOverridesTheCycle : Prop :=
  ∀ (s : State) (p : PortIn) (rest : List PortIn), s.inputs = p :: rest → p.rst = true →
    ∃ t, step s = .next t ∧
      t = { State.resetOf s.sbox s.params with
            inputs := rest, rdata := if p.sel = true ∧ p.we = false then some 0 else none } ∧
      (∀ s' : State, s'.sbox = s.sbox → s'.params = s.params → s'.inputs = s.inputs → step s' = .next t) ∧
      (∀ (q : PortIn) (rest' : List PortIn), rest = q :: rest' → q.rst = true → q.sel = p.sel → q.we = p.we →
        step t = .next { t with inputs := rest' })

/-! ### Bus transactions -/

/-- R231: what a write to each word of the window does, BUSY or not. Words 0x00 (CMD) have the two cases of R233 and R234. -/
def Obligations.BuswrWritesTheNamedRegister : Prop :=
  ∀ (s : State) (v : Word),
    (s.st = .idle → ∃ t, exec (.buswr 0 v) s = .next t ∧ t.st = .start ∧ t.lCmd = v ∧ t.done = false) ∧
    (s.st ≠ .idle → exec (.buswr 0 v) s = .next { s with ovr := true }) ∧
    exec (.buswr 1 v) s = .next
      { s with
        done := if v.getLsbD 1 then false else s.done
        warn := if v.getLsbD 16 then false else s.warn
        ovr := if v.getLsbD 17 then false else s.ovr } ∧
    exec (.buswr 2 v) s = .next { s with keyLo := v } ∧
    exec (.buswr 3 v) s = .next { s with keyHi := v.extractLsb' 8 24 ++ 0#8 } ∧
    exec (.buswr 4 v) s = .next { s with dinHi := v } ∧
    exec (.buswr 5 v) s = .next { s with dinLo := v } ∧
    exec (.buswr 8 v) s = .next { s with rkey := v } ∧
    exec (.buswr 9 v) s = .next { s with keyId := BitVec.ofNat 32 (v.toNat % 2 ^ s.params.keyIdBits) } ∧
    (∃ t, exec (.buswr 12 v) s = .next t ∧ t = { s with cfg := BitVec.ofNat 32 (v.toNat % 2) } ∧
      irq t = (v.getLsbD 0 && s.done)) ∧
    (∀ addr : BitVec 6, addr.toNat ∉ [0, 1, 2, 3, 4, 5, 8, 9, 12] → exec (.buswr addr v) s = .next s)

/-- R232: what a read of each word returns; it changes nothing but the read-data port. -/
def Obligations.BusrdReturnsTheNamedRegister : Prop :=
  ∀ (s : State) (addr : BitVec 6), ∃ w : Word, exec (.busrd addr) s = .next { s with rdata := some w } ∧
    (addr = 0 → w = 0) ∧
    (addr = 1 → w = (if s.ovr then 1#32 else 0#32) <<< (17 : Nat) ||| (if s.warn then 1#32 else 0#32) <<< (16 : Nat) |||
      s.r.setWidth 32 <<< (8 : Nat) ||| s.result.code.setWidth 32 <<< (4 : Nat) |||
      (if s.keyvalid then 1#32 else 0#32) <<< (2 : Nat) ||| (if s.done then 1#32 else 0#32) <<< (1 : Nat) |||
      (if s.st = .idle then 0#32 else 1#32)) ∧
    (addr = 2 → w = s.keyLo) ∧ (addr = 3 → w = s.keyHi) ∧ (addr = 4 → w = s.dinHi) ∧ (addr = 5 → w = s.dinLo) ∧
    (addr = 6 → w = s.doutHi) ∧ (addr = 7 → w = s.doutLo) ∧ (addr = 8 → w = s.rkey) ∧ (addr = 9 → w = s.keyId) ∧
    (addr = 10 → w = s.usageT.getD s.keyId.toNat 0) ∧ (addr = 11 → w = s.uplen) ∧ (addr = 12 → w = s.cfg) ∧
    (addr = 13 → w = 0x4D414701#32) ∧
    (∀ i : Fin 8, addr.toNat = 16 + i.val → w = s.k[i]) ∧
    (addr.toNat = 14 ∨ addr.toNat = 15 ∨ 24 ≤ addr.toNat → w = 0)

/-- R34, R35, R38, R39, R96: each field of STATUS as a read shows it, the reserved bits 0 and the result codes' numbers among them. -/
def Obligations.StatusFields : Prop :=
  ∀ s : State,
    (readWord s 1).getLsbD 0 = decide (s.st ≠ .idle) ∧ (readWord s 1).getLsbD 1 = s.done ∧
    (readWord s 1).getLsbD 2 = s.keyvalid ∧ (readWord s 1).getLsbD 3 = false ∧
    ((readWord s 1).extractLsb' 4 4).toNat =
      (match s.result with
        | .ok => 0 | .warn => 1 | .eKeylen => 2 | .eExhausted => 3 | .eNokey => 4 | .eIllegal => 5 | .padAllzero => 6
        | .eBadpad => 7) ∧
    (readWord s 1).extractLsb' 8 5 = s.r ∧ (readWord s 1).extractLsb' 13 3 = 0 ∧ (readWord s 1).getLsbD 16 = s.warn ∧
    (readWord s 1).getLsbD 17 = s.ovr ∧ (readWord s 1).extractLsb' 18 14 = 0

/-- R233: acceptance latches every operand as it stands before the write and touches nothing else. -/
def Obligations.AcceptanceLatchesOperands : Prop :=
  ∀ (s : State) (v : Word), s.st = .idle →
    exec (.buswr 0 v) s = .next
      { s with
        lCmd := v, lKey := s.keyLo ++ s.keyHi.extractLsb' 8 24, lRkey := s.rkey
        lKeyid := BitVec.ofNat 32 (s.keyId.toNat % 2 ^ s.params.keyIdBits)
        nHi := s.dinHi, nLo := s.dinLo, done := false, st := .start }

/-- R234: a CMD write while busy, the cycle in which the engine finishes included, changes nothing but OVR: the cycle is the same
as with no transaction. -/
def Obligations.CommandWriteWhileBusyIsDropped : Prop :=
  ∀ (s : State) (rest : List PortIn) (v : Word), s.st ≠ .idle → s.inputs = PortIn.write 0 v :: rest →
    exec (.buswr 0 v) s = .next { s with ovr := true } ∧
    ∃ t, step { s with inputs := PortIn.idle :: rest } = .next t ∧ step s = .next { t with ovr := true }

/-- R65 with R27, R30, R32, R42: the reserved bits of the registers read 0 in every state that meets the invariants. -/
def Obligations.ReservedBitsReadZero : Prop :=
  ∀ s : State, s.Inv →
    (readWord s 3).extractLsb' 0 8 = 0 ∧ (readWord s 9).toNat < 2 ^ s.params.keyIdBits ∧ (readWord s 12).toNat < 2 ∧
    (readWord s 11).extractLsb' 4 28 = 0 ∧ (readWord s 11).toNat ≤ 8

/-- R66: a write to one word of the window leaves the reading of every other word as it was, but for what CMD does to STATUS and
KEY_ID to USAGE (R45). -/
def Obligations.BuswrLeavesOtherWords : Prop :=
  ∀ (s t : State) (a b : BitVec 6) (v : Word), exec (.buswr a v) s = .next t → b ≠ a → ¬(a = 0 ∧ b = 1) →
    ¬(a = 9 ∧ b = 10) → readWord t b = readWord s b

/-- R26–R30, R42: a host-writable register reads back what was written, cut to its writable bits. -/
def Obligations.WritableRegistersReadBack : Prop :=
  ∀ (s : State) (a : BitVec 6) (v : Word), a.toNat ∈ [2, 3, 4, 5, 8, 9, 12] →
    ∃ t, exec (.buswr a v) s = .next t ∧
      readWord t a =
        if a = 3 then v &&& 0xFFFFFF00#32
        else if a = 9 then BitVec.ofNat 32 (v.toNat % 2 ^ s.params.keyIdBits)
        else if a = 12 then v &&& 1#32
        else v

/-! ### The interrupt -/

/-- R252: the level of `irq` is CFG.IE and STATUS.DONE, as the host reads them; a W1C write of DONE and an acceptance take it away; a
write of CFG shows at once; any command's finish raises it when IE is set. -/
def Obligations.IrqIsEnableAndDone : Prop :=
  ∀ s : State,
    irq s = ((readWord s 12).getLsbD 0 && (readWord s 1).getLsbD 1) ∧
    (∀ v t, v.getLsbD 1 = true → exec (.buswr 1 v) s = .next t → irq t = false) ∧
    (∀ v t, s.st = .idle → exec (.buswr 0 v) s = .next t → irq t = false) ∧
    (∀ v t, exec (.buswr 12 v) s = .next t → irq t = (v.getLsbD 0 && s.done)) ∧
    (∀ t, s.st ≠ .idle → engineStep s = .next t → t.st = .idle → irq t = s.cfg.getLsbD 0) ∧
    irq State.reset = false

/-! ### NOP and KEYLOAD -/

/-- R235: NOP finishes OK and does nothing else. -/
def Obligations.NopFinishesOk : Prop :=
  ∀ s : State, exec .nop s = .next { s with result := .ok, done := true, st := .idle }

/-- R111, R112: KEYLOAD with KLEN = 7 writes the expanded key, here byte by byte from the latched key `k0 … k6`, and sets KEYVALID. -/
def Obligations.KeyloadWritesTheExpandedKey : Prop :=
  ∀ (s : State) (k0 k1 k2 k3 k4 k5 k6 : Byte), s.lKey = k0 ++ k1 ++ k2 ++ k3 ++ k4 ++ k5 ++ k6 →
    exec (.keyload 7) s = .next
      { s with
        k := #v[k0 ++ k1 ++ k2 ++ k3, k4 ++ k5 ++ k6 ++ k0, k1 ++ k2 ++ k3 ++ k4, k5 ++ k6 ++ k0 ++ k1,
          k2 ++ k3 ++ k4 ++ k5, k6 ++ k0 ++ k1 ++ k2, k3 ++ k4 ++ k5 ++ k6, k0 ++ k1 ++ k2 ++ k3]
        keyvalid := true, result := .ok, done := true, st := .idle }

/-- R113: KEYLOAD with any other KLEN clears KEYVALID, keeps `K` and finishes E_KEYLEN; an ENC or DEC that starts with KEYVALID
clear finishes E_NOKEY. -/
def Obligations.KeyloadOfAnotherLength : Prop :=
  (∀ (klen : Nat) (s : State), klen ≠ 7 →
    exec (.keyload klen) s = .next { s with keyvalid := false, result := .eKeylen, done := true, st := .idle }) ∧
  (∀ s : State, s.st = .start → s.keyvalid = false →
    exec .enc s = .next { s with result := .eNokey, done := true, st := .idle } ∧
    exec .dec s = .next { s with result := .eNokey, done := true, st := .idle })

/-- R114, R115: the order in which rounds 0..31 use the words of `K`, in ENC and in DEC. -/
def Obligations.RoundKeyOrder : Prop :=
  (∀ (k : Vector Word 8) (i : Nat) (h : i < 24), sched k i = k[i % 8]'(by omega)) ∧
  (∀ (k : Vector Word 8) (i : Nat) (h : 24 ≤ i) (_ : i < 32), sched k i = k[31 - i]'(by omega)) ∧
  (∀ (k : Vector Word 8) (r : Nat), encKey k r = sched k r ∧ decKey k r = sched k (31 - r)) ∧
  (List.range 32).map (fun r => (kidx r).val) =
    [0, 1, 2, 3, 4, 5, 6, 7, 0, 1, 2, 3, 4, 5, 6, 7, 0, 1, 2, 3, 4, 5, 6, 7, 7, 6, 5, 4, 3, 2, 1, 0] ∧
  (List.range 32).map (fun r => (kidx (31 - r)).val) =
    [0, 1, 2, 3, 4, 5, 6, 7, 7, 6, 5, 4, 3, 2, 1, 0, 7, 6, 5, 4, 3, 2, 1, 0, 7, 6, 5, 4, 3, 2, 1, 0]

/-- R117: after a KEYLOAD that succeeds, `K[7] = K[0] = L_KEY[55:24]`, and ENC's rounds 0, 7, 8, 15, 16, 23, 24, 31 all use it. -/
def Obligations.FirstAndLastKeyWordAgree : Prop :=
  ∀ s : State, ∃ t, exec (.keyload 7) s = .next t ∧ t.k[7] = t.k[0] ∧ readWord t 16 = s.lKey.extractLsb' 24 32 ∧
    readWord t 23 = s.lKey.extractLsb' 24 32 ∧
    ∀ r ∈ [0, 7, 8, 15, 16, 23, 24, 31], encKey t.k r = s.lKey.extractLsb' 24 32

/-- R118: two successful KEYLOADs of the same latched key leave the same `K` and the same 32 round keys, whatever else differs. -/
def Obligations.KeyloadIsAFunctionOfTheKey : Prop :=
  ∀ s s' t t' : State, s.lKey = s'.lKey → exec (.keyload 7) s = .next t → exec (.keyload 7) s' = .next t' →
    t.k = t'.k ∧ ∀ r, sched t.k r = sched t'.k r

/-! ### The S-box layer and the round function -/

/-- R133: nibble `i` of `T(x)` is table `i` at nibble `i` of `x`. -/
def Obligations.XformActsNibblewise : Prop :=
  ∀ (sb : SBox) (x : Word) (i : Fin 8),
    (xform sb x).extractLsb' (4 * i.val) 4 = (sb[i])[(x.extractLsb' (4 * i.val) 4).toFin]

/-- R135: bit `j` moves to bit `(j + 11) mod 32`. -/
def Obligations.RotatorMovesEachBit : Prop :=
  ∀ x : Word, rotl11 x = x.extractLsb' 0 21 ++ x.extractLsb' 21 11 ∧
    ∀ j, j < 32 → (rotl11 x).getLsbD ((j + 11) % 32) = x.getLsbD j

/-- R134, R136, R138: the addition wraps modulo 2^32, then T, then the rotation; the corner cases of R138. -/
def Obligations.RoundFunctionCorners : Prop :=
  ∀ sb : SBox,
    (∀ half k : Word, roundFn sb half k = rotl11 (xform sb (BitVec.ofNat 32 ((half.toNat + k.toNat) % 2 ^ 32)))) ∧
    roundFn sb 0xFFFFFFFF#32 1#32 = roundFn sb 0 0 ∧ roundFn sb 0x80000000#32 0x80000000#32 = roundFn sb 0 0 ∧
    roundFn sb 0 0 = rotl11 (xform sb 0) ∧ ∀ half : Word, roundFn sb half 0 = rotl11 (xform sb half)

/-- R137: with a lawful ROM, T is a bijection; the rotation by 11 is undone by one by 21; `g` is a bijection in its first operand and
depends on the operands only through their sum; T(0) is the column of entries 0. -/
def Obligations.RoundFunctionIsBijective : Prop :=
  ∀ sb : SBox, SBoxLaw sb →
    Function.Bijective (xform sb) ∧
    (Function.Bijective rotl11 ∧ ∀ x : Word, (rotl11 x).rotateLeft 21 = x) ∧
    (∀ k : Word, Function.Bijective fun half => roundFn sb half k) ∧
    (∀ a k d : Word, roundFn sb a k = roundFn sb (a + d) (k - d)) ∧
    (∀ i : Fin 8, (xform sb 0).extractLsb' (4 * i.val) 4 = (sb[i])[0])

/-- R143, R144: the two diagnostic commands need no key, read DIN's low half (and RKEY) as latched, and write DOUT only. -/
def Obligations.DiagnosticCommands : Prop :=
  ∀ s : State,
    exec .xformT s = .next
      { s with doutHi := 0, doutLo := xform s.sbox s.nLo, result := .ok, done := true, st := .idle } ∧
    exec .roundG s = .next
      { s with doutHi := 0, doutLo := rotl11 (xform s.sbox (s.nLo + s.lRkey)), result := .ok, done := true, st := .idle }

/-! ### ENC and DEC -/

/-- R164, R213, R215, R254: the START step of ENC and DEC: the checks in their order, the charge, and the start of the rounds. -/
def Obligations.CipherStartChecks : Prop :=
  ∀ s : State, s.st = .start →
    ((∀ i, decodeCmd s.lCmd ≠ .ok i) → engineStep s = .next { s with result := .eIllegal, done := true, st := .idle }) ∧
    (s.keyvalid = false →
      exec .enc s = .next { s with result := .eNokey, done := true, st := .idle } ∧
      exec .dec s = .next { s with result := .eNokey, done := true, st := .idle }) ∧
    (s.keyvalid = true → exec .dec s = .next { s with r := 0, st := .rounds }) ∧
    (s.keyvalid = true → s.params.ceilBytes < (s.usageT.getD s.lKeyid.toNat 0).toNat + 8 →
      exec .enc s = .next { s with result := .eExhausted, done := true, st := .idle }) ∧
    (s.keyvalid = true → (s.usageT.getD s.lKeyid.toNat 0).toNat + 8 ≤ s.params.ceilBytes →
      exec .enc s = .next
        { s with
          usageT := s.usageT.set s.lKeyid.toNat (BitVec.ofNat 32 ((s.usageT.getD s.lKeyid.toNat 0).toNat + 8))
          r := 0, st := .rounds })

/-- R165, R166: a ROUNDS step with `r < 31`, of ENC and of DEC. -/
def Obligations.MiddleRoundSwaps : Prop :=
  ∀ s : State, s.st = .rounds → s.r.toNat < 31 →
    exec .enc s = .next
      { s with nHi := s.nLo, nLo := s.nHi ^^^ roundFn s.sbox s.nLo s.k[kidx s.r.toNat], r := s.r + 1 } ∧
    exec .dec s = .next
      { s with nHi := s.nLo, nLo := s.nHi ^^^ roundFn s.sbox s.nLo s.k[kidx (31 - s.r.toNat)], r := s.r + 1 }

/-- R166, R167: the ROUNDS step with `r = 31`: no swap, DOUT in the same step, and the finish; ENC with WARN exactly when its counter
exceeds the soft threshold. -/
def Obligations.LastRoundFinishes : Prop :=
  ∀ s : State, s.st = .rounds → s.r.toNat = 31 →
    exec .dec s = .next
      { s with
        nHi := s.nHi ^^^ roundFn s.sbox s.nLo s.k[kidx 0]
        doutHi := s.nHi ^^^ roundFn s.sbox s.nLo s.k[kidx 0], doutLo := s.nLo
        result := .ok, done := true, st := .idle } ∧
    ((s.usageT.getD s.lKeyid.toNat 0).toNat ≤ s.params.warnBytes →
      exec .enc s = .next
        { s with
          nHi := s.nHi ^^^ roundFn s.sbox s.nLo s.k[kidx 31]
          doutHi := s.nHi ^^^ roundFn s.sbox s.nLo s.k[kidx 31], doutLo := s.nLo
          result := .ok, done := true, st := .idle }) ∧
    (s.params.warnBytes < (s.usageT.getD s.lKeyid.toNat 0).toNat →
      exec .enc s = .next
        { s with
          nHi := s.nHi ^^^ roundFn s.sbox s.nLo s.k[kidx 31]
          doutHi := s.nHi ^^^ roundFn s.sbox s.nLo s.k[kidx 31], doutLo := s.nLo
          result := .warn, done := true, warn := true, st := .idle })

/-- R161, R162: the last round does not swap; `crypt` is the 32 swapped rounds and then one exchange of the halves. -/
def Obligations.CryptIsSwappedRoundsAndAnExchange : Prop :=
  ∀ (sb : SBox) (ks : Nat → Word) (hi lo : Word),
    (crypt sb ks (hi, lo)).1 = (swapRounds sb ks 32 (hi, lo)).2 ∧
    (crypt sb ks (hi, lo)).2 = (swapRounds sb ks 32 (hi, lo)).1 ∧
    ∀ k : Word, (lastRound sb k (hi, lo)).2 = lo

/-- R169: DEC inverts ENC and ENC inverts DEC, for every block, every `K` and every S-box, lawful or not; and blocks are independent:
in a message that begins with whole blocks, each of them gives its own `E` (`D`) in its own place, whatever stands before and after it,
and the rest of the message gives what it gives alone. -/
def Obligations.CipherRoundTrip : Prop :=
  ∀ (sb : SBox) (k : Vector Word 8),
    (∀ x : Block, decBlock sb k (encBlock sb k x) = x) ∧ (∀ x : Block, encBlock sb k (decBlock sb k x) = x) ∧
    ∀ (ps : List (Word × Word)) (d : List Byte),
      ecbEncrypt sb k (blocksBytes ps ++ d) =
        (ps.flatMap fun p => pairBytes (blockHi (encBlock sb k (p.1 ++ p.2)), blockLo (encBlock sb k (p.1 ++ p.2)))) ++
          ecbEncrypt sb k d ∧
      ecbDecrypt sb k (blocksBytes ps ++ d) =
        (ps.flatMap fun p => pairBytes (blockHi (decBlock sb k (p.1 ++ p.2)), blockLo (decBlock sb k (p.1 ++ p.2)))) ++
          ecbDecrypt sb k d

/-- R168 for ENC: whatever the host does on the bus meanwhile, short of reset, an ENC that passes START ends after exactly 33 cycles
with `E` of the latched block under `K` in DOUT, its counter charged 8 and its code by the soft threshold. -/
def Obligations.EncRunComputesE : Prop :=
  ∀ s : State, s.Inv → s.st = .start → decodeCmd s.lCmd = .ok .enc → s.keyvalid = true →
    (s.usageT.getD s.lKeyid.toNat 0).toNat + 8 ≤ s.params.ceilBytes → s.noReset 33 →
    (∀ n, 0 < n → n < 33 → ∃ u, runCycles n s = .next u ∧ u.st = .rounds ∧ u.r.toNat = n - 1 ∧ u.doutHi = s.doutHi ∧
      u.doutLo = s.doutLo) ∧
    ∃ t, runCycles 33 s = .next t ∧ t.st = .idle ∧ t.done = true ∧ t.doutHi ++ t.doutLo = encBlock s.sbox s.k (s.nHi ++ s.nLo) ∧
      t.result = (if s.params.warnBytes < (s.usageT.getD s.lKeyid.toNat 0).toNat + 8 then .warn else .ok) ∧
      (t.result = .warn → t.warn = true) ∧ t.r.toNat = 31 ∧ t.k = s.k ∧ t.keyvalid = true ∧ t.uplen = s.uplen ∧
      t.usageT = s.usageT.set s.lKeyid.toNat (BitVec.ofNat 32 ((s.usageT.getD s.lKeyid.toNat 0).toNat + 8))

/-- R168 for DEC, as for ENC; no counter moves (R216). -/
def Obligations.DecRunComputesD : Prop :=
  ∀ s : State, s.Inv → s.st = .start → decodeCmd s.lCmd = .ok .dec → s.keyvalid = true → s.noReset 33 →
    (∀ n, 0 < n → n < 33 → ∃ u, runCycles n s = .next u ∧ u.st = .rounds ∧ u.r.toNat = n - 1 ∧ u.doutHi = s.doutHi ∧
      u.doutLo = s.doutLo) ∧
    ∃ t, runCycles 33 s = .next t ∧ t.st = .idle ∧ t.done = true ∧ t.doutHi ++ t.doutLo = decBlock s.sbox s.k (s.nHi ++ s.nLo) ∧
      t.result = .ok ∧ t.r.toNat = 31 ∧ t.k = s.k ∧ t.keyvalid = true ∧ t.uplen = s.uplen ∧ t.usageT = s.usageT

/-! ### PAD and UNPAD -/

/-- R194, R196: PAD keeps the first PADN bytes of the latched block, sets the marker and zeros the rest. -/
def Obligations.PadWritesMarkerAndZeros : Prop :=
  ∀ (s : State) (n : Nat), n < 8 → ∃ t,
    exec (.pad n) s = .next t ∧
    t = { s with doutHi := t.doutHi, doutLo := t.doutLo, result := .ok, done := true, st := .idle } ∧
    ∀ j, j < 8 →
      (t.doutHi ++ t.doutLo).extractLsb' (56 - 8 * j) 8 =
        if j < n then (s.nHi ++ s.nLo).extractLsb' (56 - 8 * j) 8 else if j = n then 0x80#8 else 0#8

/-- R194, R197: UNPAD's code and length, by the position of the last non-zero byte of the latched block. -/
def Obligations.UnpadFindsTheLastNonzeroByte : Prop :=
  ∀ (s : State) (byte : Nat → Byte), (∀ j, byte j = (s.nHi ++ s.nLo).extractLsb' (56 - 8 * j) 8) →
    ((∀ j, j < 8 → byte j = 0) →
      exec .unpad s = .next { s with uplen := 0, result := .padAllzero, done := true, st := .idle }) ∧
    ∀ p, p < 8 → byte p ≠ 0 → (∀ j, p < j → j < 8 → byte j = 0) →
      (byte p = 0x80#8 →
        exec .unpad s = .next { s with uplen := BitVec.ofNat 32 p, result := .ok, done := true, st := .idle }) ∧
      (byte p ≠ 0x80#8 →
        exec .unpad s = .next { s with uplen := 8, result := .eBadpad, done := true, st := .idle })

/-! ### Usage -/

/-- R46, R212, R216, R217: without reset, a step moves a usage counter only if it is the START step of an ENC with a key, and then
only the latched identifier's counter, by 8, never past the ceiling. -/
def Obligations.OnlyEncStartCharges : Prop :=
  ∀ s t : State, (nextInput s).rst = false → step s = .next t → t.usageT ≠ s.usageT →
    s.st ≠ .rounds ∧ s.st ≠ .idle ∧ decodeCmd s.lCmd = .ok .enc ∧ s.keyvalid = true ∧
    (s.usageT.getD s.lKeyid.toNat 0).toNat + 8 ≤ s.params.ceilBytes ∧
    t.usageT = s.usageT.set s.lKeyid.toNat (BitVec.ofNat 32 ((s.usageT.getD s.lKeyid.toNat 0).toNat + 8)) ∧ t.st = .rounds

/-- R218: with the default thresholds, the ENC that finds `n` earlier charges on its identifier is charged when `n < 2560` and is
refused at `n = 2560`, the ceiling, with nothing changed but the finish; its code is WARN from the 1281st ENC on. -/
def Obligations.UsageThresholdsByCount : Prop :=
  ∀ (s : State) (n : Nat), s.Inv → s.params = Config.Params.default → s.st = .start → decodeCmd s.lCmd = .ok .enc →
    s.keyvalid = true → s.noReset 33 → (s.usageT.getD s.lKeyid.toNat 0).toNat = 8 * n →
    (n < 2560 → ∃ t, runCycles 33 s = .next t ∧ (t.usageT.getD s.lKeyid.toNat 0).toNat = 8 * (n + 1) ∧
      t.result = (if n < 1280 then .ok else .warn)) ∧
    (n = 2560 → ∃ t, runCycles 1 s = .next t ∧ t.st = .idle ∧ t.done = true ∧ t.result = .eExhausted ∧ t.usageT = s.usageT ∧
      t.doutHi = s.doutHi ∧ t.doutLo = s.doutLo ∧ t.uplen = s.uplen ∧ t.r = s.r ∧ t.nHi = s.nHi ∧ t.nLo = s.nLo ∧ t.k = s.k ∧
      t.keyvalid = s.keyvalid)

/-! ### Invariants and whole-machine rules -/

/-- R51: the invariants hold after reset. -/
def Obligations.ResetMeetsTheInvariants : Prop := State.reset.Inv

/-- R51: every step keeps the invariants, from every state that meets them. -/
def Obligations.StepKeepsTheInvariants : Prop :=
  ∀ s t : State, s.Inv → step s = .next t → t.Inv

/-- R31, R37, R38, R286: without reset, a step that does not finish a command leaves DOUT, UPLEN, RESULT, KEYVALID and `K` as they
were: no partial result is ever seen. -/
def Obligations.ResultsChangeOnlyAtTheFinish : Prop :=
  ∀ s t : State, (nextInput s).rst = false → step s = .next t → (s.st = .idle ∨ t.st ≠ .idle) →
    t.doutHi = s.doutHi ∧ t.doutLo = s.doutLo ∧ t.uplen = s.uplen ∧ t.result = s.result ∧ t.keyvalid = s.keyvalid ∧ t.k = s.k

/-- R21, R37: without reset, `K` and KEYVALID change only in the step of a KEYLOAD. -/
def Obligations.KeyChangesOnlyByKeyload : Prop :=
  ∀ s t : State, (nextInput s).rst = false → step s = .next t → t.k ≠ s.k ∨ t.keyvalid ≠ s.keyvalid →
    s.st ≠ .idle ∧ t.st = .idle ∧ ∃ klen, decodeCmd s.lCmd = .ok (.keyload klen) ∧
      (t.k ≠ s.k → klen = 7) ∧ t.keyvalid = decide (klen = 7)

/-- R36, R38, R290: DONE is set by finishing steps alone, and a finishing step sets it whatever the host clears in the same cycle; the
same for WARN when the command's code is WARN. -/
def Obligations.FinishWinsOverClearing : Prop :=
  ∀ s t : State, (nextInput s).rst = false → step s = .next t →
    (s.st ≠ .idle → t.st = .idle → t.done = true ∧ (t.result = .warn → t.warn = true)) ∧
    (t.done = true → s.done = false → s.st ≠ .idle ∧ t.st = .idle)

/-- R25, R74, R288: what the host does on the bus while a command is in flight reaches neither the command nor its result: two cycles
that differ only in the transaction leave the same engine and the same results. -/
def Obligations.BusTrafficDoesNotReachACommand : Prop :=
  ∀ (s : State) (p q : PortIn) (t u : State), s.st ≠ .idle → p.rst = false → q.rst = false →
    clockCycle p s = .next t → clockCycle q s = .next u →
    t.k = u.k ∧ t.nHi = u.nHi ∧ t.nLo = u.nLo ∧ t.r = u.r ∧ t.st = u.st ∧ t.lCmd = u.lCmd ∧ t.lKey = u.lKey ∧
    t.lRkey = u.lRkey ∧ t.lKeyid = u.lKeyid ∧ t.usageT = u.usageT ∧ t.doutHi = u.doutHi ∧ t.doutLo = u.doutLo ∧
    t.uplen = u.uplen ∧ t.result = u.result ∧ t.keyvalid = u.keyvalid

/-- R236, R287: no command is lost silently. In every cycle with a CMD write and no reset, either the word is accepted or OVR is set at
the end of the cycle. -/
def Obligations.NoCommandIsLostSilently : Prop :=
  ∀ (s t : State) (p : PortIn), p.rst = false → p.sel = true → p.we = true → p.addr = 0 → clockCycle p s = .next t →
    (s.st = .idle ∧ t.st = .start ∧ t.lCmd = p.wdata ∧ t.done = false) ∨ (s.st ≠ .idle ∧ t.ovr = true ∧ t.lCmd = s.lCmd)

/-- R293, R294: every accepted command finishes within 33 cycles, absent reset, whatever the host does meanwhile. -/
def Obligations.EveryCommandFinishes : Prop :=
  ∀ s : State, s.Inv → s.st ≠ .idle → s.noReset 33 →
    ∃ n t, 0 < n ∧ n ≤ 33 ∧ runCycles n s = .next t ∧ t.st = .idle ∧ t.done = true ∧
      ∀ m u, m < n → runCycles m s = .next u → u.st ≠ .idle

/-- R294: every command but an ENC or DEC that passes START, and every illegal word, finishes in the one cycle after its acceptance:
an ENC or DEC fails START without a key, an ENC also when its charge would pass the ceiling. -/
def Obligations.OtherCommandsTakeOneCycle : Prop :=
  ∀ s t : State, s.st = .start → (nextInput s).rst = false → step s = .next t →
    (decodeCmd s.lCmd ≠ .ok .enc ∧ decodeCmd s.lCmd ≠ .ok .dec ∨ s.keyvalid = false ∨
      decodeCmd s.lCmd = .ok .enc ∧ s.params.ceilBytes < (s.usageT.getD s.lKeyid.toNat 0).toNat + 8) →
    t.st = .idle ∧ t.done = true

/-! ### Messages -/

/-- R191: the padded length is the next multiple of eight, always larger; and what is appended. -/
def Obligations.PadMessageShape : Prop :=
  ∀ d : List Byte, (padMsg d).length = 8 * (d.length / 8 + 1) ∧
    padMsg d = d ++ 0x80#8 :: List.replicate (7 - d.length % 8) 0#8

/-- R192: `unpad`, by the position of the last non-zero byte. -/
def Obligations.UnpadMessageByLastNonzeroByte : Prop :=
  ∀ d : List Byte,
    ((∀ b ∈ d, b = 0#8) → unpadMsg d = (d, true)) ∧
    ∀ (before : List Byte) (b : Byte) (n : Nat), d = before ++ b :: List.replicate n 0#8 → b ≠ 0#8 →
      unpadMsg d = if b = 0x80#8 then (before, false) else (d, true)

/-- R193: unpadding what was padded gives the message back, for every byte sequence. -/
def Obligations.UnpadInvertsPad : Prop :=
  ∀ d : List Byte, unpadMsg (padMsg d) = (d, false)

/-- R195: the block-level codec is the message-level one: the padded message is its full blocks and `padblk` of any block that begins
with the tail, and the scan of whole blocks from the last one is `unpad`. -/
def Obligations.BlockCodecIsTheMessageCodec : Prop :=
  (∀ (d : List Byte) (t : Block),
    (∀ j, j < d.length % 8 → t.extractLsb' (56 - 8 * j) 8 = (d.drop (8 * (d.length / 8))).getD j 0) →
    padMsg d = blocksBytes ((splitBlocks d).1 ++ [(blockHi (padblk t (d.length % 8)), blockLo (padblk t (d.length % 8)))]) ∧
      blocksBytes (splitBlocks d).1 = d.take (8 * (d.length / 8))) ∧
  (∀ ps : List (Word × Word), unpadBlocks (blocksBytes ps) ps.reverse = unpadMsg (blocksBytes ps))

/-- R98, R293: a command that the host writes to an idle machine and waits for always ends, with BUSY 0, DONE 1 and the command's code
in the word that ends the wait. The host is the model's polling host (log 12): it reads STATUS in every cycle, at most 34 times, which is
enough on this machine. -/
def Obligations.WaitSeesEveryCommandEnd : Prop :=
  ∀ (s : State) (v : Word), s.Inv → s.st = .idle →
    ∃ w t, hostCmd v s = some (w, t) ∧ t.Inv ∧ t.st = .idle ∧ w.getLsbD 0 = false ∧ w.getLsbD 1 = true ∧
      statusResult w = t.result.code ∧ ((∀ i, decodeCmd v ≠ .ok i) → t.result = .eIllegal)

/-- R240: on an idle machine, `encrypt_message` with a 7-byte key and an identifier with room returns `E` applied block by block to
`pad(d)`, and the machine charges 8 bytes a block to that identifier. The host is the model's polling host (log 12), with the key
length as an argument of its own (log 13). -/
def Obligations.EncryptMessageIsEcbOfPad : Prop :=
  ∀ (s : State) (d key : List Byte) (id : Word), s.Inv → s.st = .idle → key.length = 7 → id.toNat < 2 ^ s.params.keyIdBits →
    (s.usageT.getD id.toNat 0).toNat + (padMsg d).length ≤ s.params.ceilBytes →
    ∃ (warned : Bool) (t : State),
      encryptMessage d key 7 id s =
        (.ok (ecbEncrypt s.sbox (expandKey (masterKey key)) d, warned), t) ∧
      t.st = .idle ∧ t.keyvalid = true ∧
      t.k = expandKey (masterKey key) ∧
      (t.usageT.getD id.toNat 0).toNat = (s.usageT.getD id.toNat 0).toNat + (padMsg d).length ∧
      warned = decide (s.params.warnBytes < (s.usageT.getD id.toNat 0).toNat + (padMsg d).length)

/-- R240, R251, R218: when `encrypt_message` fails. A wrong key length ends it before any charge, with the old `K` and no key; a
message that does not fit under the ceiling ends it with KeyExhausted and no ciphertext, the room that is left too small for a block.
The host is the model's polling host (log 12); a key byte it does not have is written as 0 (log 13). -/
def Obligations.EncryptMessageFailures : Prop :=
  ∀ (s : State) (d key : List Byte) (id : Word), s.Inv → s.st = .idle →
    (∀ klen, klen < 16 → klen ≠ 7 →
      ∃ t : State, encryptMessage d key klen id s = (.error .invalidKeyLength, t) ∧ t.usageT = s.usageT ∧ t.k = s.k ∧
        t.keyvalid = false) ∧
    (id.toNat < 2 ^ s.params.keyIdBits → s.params.ceilBytes < (s.usageT.getD id.toNat 0).toNat + (padMsg d).length →
      ∃ t : State, encryptMessage d key 7 id s = (.error .keyExhausted, t) ∧
        (t.usageT.getD id.toNat 0).toNat ≤ s.params.ceilBytes ∧
        s.params.ceilBytes < (t.usageT.getD id.toNat 0).toNat + Config.chargeBytes)

/-- R241: on an idle machine with a key, `decrypt_message` of whole blocks is `unpad` of `D` applied block by block; a misaligned
ciphertext fails in strict mode, and in permissive mode its last bytes follow the unpadded text. The host is the model's polling host
(log 12). -/
def Obligations.DecryptMessageIsUnpadOfEcb : Prop :=
  ∀ (s : State) (c : List Byte) (mode : DecTail), s.st = .idle → s.keyvalid = true →
    (c.length % 8 ≠ 0 → mode = .strict → decryptMessage mode c s = (.error .misalignedCiphertext, s)) ∧
    (c.length % 8 = 0 ∨ mode = .permissive →
      ∃ t : State, t.usageT = s.usageT ∧ t.k = s.k ∧
        decryptMessage mode c s =
          (.ok ((unpadMsg (ecbDecrypt s.sbox s.k c)).1 ++ c.drop (8 * (c.length / 8)),
            (unpadMsg (ecbDecrypt s.sbox s.k c)).2), t))

/-- R243: decrypting an encrypted message gives it back, with no UnrecognizedPadding signal. Both procedures are those of the model's
polling host (log 12), the key length an argument of its own (log 13). -/
def Obligations.MessageRoundTrip : Prop :=
  ∀ (s : State) (d key : List Byte) (id : Word), s.Inv → s.st = .idle → key.length = 7 → id.toNat < 2 ^ s.params.keyIdBits →
    (s.usageT.getD id.toNat 0).toNat + (padMsg d).length ≤ s.params.ceilBytes →
    ∃ (c : List Byte) (warned : Bool) (t u : State),
      encryptMessage d key 7 id s = (.ok (c, warned), t) ∧ decryptMessage .strict c t = (.ok (d, false), u)
end

