-- ==== Sys2Proof/Laws/Bits.lean ====
section
/-! SUPPORT. Slices of concatenations: what a field of a word put together from parts is. -/

namespace Sys2Proof.Machine

/-- A slice that lies in the left part. -/
theorem extract_append_left {m n len start : Nat} (x : BitVec m) (y : BitVec n) (h : n ≤ start) :
    (x ++ y).extractLsb' start len = x.extractLsb' (start - n) len := by
  apply BitVec.eq_of_getLsbD_eq
  intro i hi
  rw [BitVec.getLsbD_extractLsb', BitVec.getLsbD_extractLsb', BitVec.getLsbD_append, if_neg (by omega),
    Nat.sub_add_comm h]

/-- A slice that lies in the right part. -/
theorem extract_append_right {m n len start : Nat} (x : BitVec m) (y : BitVec n) (h : start + len ≤ n) :
    (x ++ y).extractLsb' start len = y.extractLsb' start len := by
  apply BitVec.eq_of_getLsbD_eq
  intro i hi
  rw [BitVec.getLsbD_extractLsb', BitVec.getLsbD_extractLsb', BitVec.getLsbD_append, if_pos (by omega)]

/-- A whole vector is its own slice. -/
@[simp] theorem extract_self {n : Nat} (x : BitVec n) : x.extractLsb' 0 n = x := by
  simp

/-- Two neighbouring slices are one slice. -/
theorem extract_join {n a b start : Nat} (x : BitVec n) :
    x.extractLsb' (start + b) a ++ x.extractLsb' start b = x.extractLsb' start (a + b) := by
  apply BitVec.eq_of_getLsbD_eq
  intro i hi
  rw [BitVec.getLsbD_append, BitVec.getLsbD_extractLsb', BitVec.getLsbD_extractLsb', BitVec.getLsbD_extractLsb']
  by_cases h : i < b
  · simp [h, hi]
  · rw [if_neg h, decide_eq_true (show i - b < a by omega), decide_eq_true hi]
    congr 2
    omega

/-- A block put together from two halves, taken apart again. -/
@[simp] theorem blockHi_append (h l : Word) : blockHi (h ++ l) = h := by
  rw [blockHi, extract_append_left _ _ (Nat.le_refl _)]
  simp

@[simp] theorem blockLo_append (h l : Word) : blockLo (h ++ l) = l := by
  rw [blockLo, extract_append_right _ _ (Nat.le_refl _)]
  simp

/-- A block is its two halves. -/
@[simp] theorem blockHi_blockLo (blk : Block) : blockHi blk ++ blockLo blk = blk := by
  have h := extract_join (a := 32) (b := 32) (start := 0) blk
  simpa [blockHi, blockLo] using h

/-- The bytes of a big-endian word. -/
theorem wordByte_be32 (b0 b1 b2 b3 : Byte) :
    wordByte (be32 b0 b1 b2 b3) 0 = b0 ∧ wordByte (be32 b0 b1 b2 b3) 1 = b1 ∧ wordByte (be32 b0 b1 b2 b3) 2 = b2 ∧
      wordByte (be32 b0 b1 b2 b3) 3 = b3 := by
  refine ⟨?_, ?_, ?_, ?_⟩ <;> simp only [wordByte, be32]
  · rw [extract_append_left _ _ (show 8 ≤ 24 by decide), extract_append_left _ _ (show 8 ≤ 16 by decide),
      extract_append_left _ _ (show 8 ≤ 8 by decide)]
    simp
  · rw [extract_append_left _ _ (show 8 ≤ 16 by decide), extract_append_left _ _ (show 8 ≤ 8 by decide),
      extract_append_right _ _ (show 0 + 8 ≤ 8 by decide)]
    simp
  · rw [extract_append_left _ _ (show 8 ≤ 8 by decide), extract_append_right _ _ (show 0 + 8 ≤ 8 by decide)]
    simp
  · rw [extract_append_right _ _ (show 0 + 8 ≤ 8 by decide)]
    simp

/-- A word is its bytes, most significant first. -/
theorem be32_wordByte (w : Word) : be32 (wordByte w 0) (wordByte w 1) (wordByte w 2) (wordByte w 3) = w := by
  have h1 := extract_join (a := 8) (b := 8) (start := 16) w
  have h2 := extract_join (a := 16) (b := 8) (start := 8) w
  have h3 := extract_join (a := 24) (b := 8) (start := 0) w
  simp only [wordByte, be32]
  simp at h1 h2 h3 ⊢
  rw [h1, h2, h3]

/-- Byte `j` of a block is a byte of one of its halves. -/
theorem blockByte_append (h l : Word) {j : Nat} (hj : j < 8) :
    blockByte (h ++ l) j = if j < 4 then wordByte h j else wordByte l (j - 4) := by
  unfold blockByte wordByte
  split
  · rw [extract_append_left _ _ (show 32 ≤ 56 - 8 * j by omega)]
    congr 1
    omega
  · rw [extract_append_right _ _ (show 56 - 8 * j + 8 ≤ 32 by omega)]
    congr 1
    omega

/-- The bytes of a block put together from bytes. -/
theorem blockByte_blockOfBytes (f : Nat → Byte) {j : Nat} (h : j < 8) : blockByte (blockOfBytes f) j = f j := by
  unfold blockOfBytes
  rw [blockByte_append _ _ h]
  have h0 := wordByte_be32 (f 0) (f 1) (f 2) (f 3)
  have h4 := wordByte_be32 (f 4) (f 5) (f 6) (f 7)
  interval_cases j <;> simp [h0, h4]

end Sys2Proof.Machine
end

