-- ==== Sys2Proof/Laws/PerInstr.lean ====
section
/-! SUPPORT. Per-instruction lemmas of the family RoundTrip: decoding what the encoder writes gives the instruction back. -/

namespace Sys2Proof.Laws.RoundTrip

/-- Decoding the encoding of a well-formed instruction gives it back. -/
def Statement (i : Instr) : Prop := i.wf = true → decode (encode i) = .ok i

theorem nop : Statement .nop := fun _ => by decide

theorem keyload (klen : Nat) : Statement (.keyload klen) := by
  intro h
  have h : klen < 16 := by simpa [Instr.wf] using h
  interval_cases klen <;> decide

theorem enc : Statement .enc := fun _ => by decide

theorem dec : Statement .dec := fun _ => by decide

theorem pad (padn : Nat) : Statement (.pad padn) := by
  intro h
  have h : padn < 8 := by simpa [Instr.wf] using h
  interval_cases padn <;> decide

theorem unpad : Statement .unpad := fun _ => by decide

theorem xformT : Statement .xformT := fun _ => by decide

theorem roundG : Statement .roundG := fun _ => by decide

/-- The pattern of a write is a write of the same word index. -/
theorem busPattern_true (addr : BitVec 6) :
    (busPattern true addr).getLsbD 6 = true ∧ (busPattern true addr).extractLsb' 0 6 = addr := by
  revert addr; decide

/-- The pattern of a read is a read of the same word index. -/
theorem busPattern_false (addr : BitVec 6) :
    (busPattern false addr).getLsbD 6 = false ∧ (busPattern false addr).extractLsb' 0 6 = addr := by
  revert addr; decide

theorem buswr (addr : BitVec 6) (wdata : Word) : Statement (.buswr addr wdata) := by
  intro _
  simp only [encode, decode, decodeBus, busPattern_true addr, if_true]

theorem busrd (addr : BitVec 6) : Statement (.busrd addr) := by
  intro _
  simp only [encode, decode, decodeBus, busPattern_false addr, Bool.false_eq_true, if_false]

end Sys2Proof.Laws.RoundTrip
end

