-- ==== Sys2Proof/Laws/Decode.lean ====
section
/-! SUPPORT. What the decoder answers: the two ways a command word is read, and the bus transactions. -/

namespace Sys2Proof

/-- The decoder's answer on a write pattern. -/
@[simp] theorem decodeBus_write (addr : BitVec 6) (v : Word) : decodeBus (busPattern true addr) v = .buswr addr v := by
  simp only [decodeBus, Laws.RoundTrip.busPattern_true addr, if_true]

/-- The decoder's answer on a read pattern. -/
@[simp] theorem decodeBus_read (addr : BitVec 6) (v : Word) : decodeBus (busPattern false addr) v = .busrd addr := by
  simp only [decodeBus, Laws.RoundTrip.busPattern_false addr, Bool.false_eq_true, if_false]

/-- A word decodes to a command exactly when the opcode map has it and none of its other fields is set where it may not be. -/
theorem decodeCmd_ok_iff (c : Word) (i : Instr) :
    decodeCmd c = .ok i ↔
      opcodeMap (cmdOp c) (cmdKlen c) (cmdPadn c) = some i ∧ cmdRsv c = 0 ∧ (cmdKlen c = 0 ∨ cmdOp c = 0x1) ∧
        (cmdPadn c = 0 ∨ cmdOp c = 0x4) := by
  unfold decodeCmd
  cases h : opcodeMap (cmdOp c) (cmdKlen c) (cmdPadn c) with
  | none => simp
  | some j =>
    simp only [Option.some.injEq]
    split_ifs with h1 h2 h3
    · simp only [false_iff]; tauto
    · simp only [false_iff]; tauto
    · simp only [false_iff]; tauto
    · simp only [Except.ok.injEq]; tauto

/-- The opcode map has exactly the opcodes below 8. -/
theorem opcodeMap_isSome (op klen : BitVec 4) (padn : BitVec 3) :
    (opcodeMap op klen padn).isSome = decide (op.toNat < 8) := by
  revert op klen padn; decide

/-- No command word decodes to a bus transaction. -/
theorem opcodeMap_isCommand {op klen : BitVec 4} {padn : BitVec 3} {i : Instr} (h : opcodeMap op klen padn = some i) :
    i.isCommand = true := by
  unfold opcodeMap at h
  split at h <;> simp only [Option.some.injEq, reduceCtorEq] at h <;> subst h <;> rfl

theorem decodeCmd_isCommand {c : Word} {i : Instr} (h : decodeCmd c = .ok i) : i.isCommand = true :=
  opcodeMap_isCommand ((decodeCmd_ok_iff c i).1 h).1

end Sys2Proof
end

