-- ==== Sys2Proof/Laws/State.lean ====
section
/-! SUPPORT. One lemma per field per update of the state, each true by unfolding the update once. -/

namespace Sys2Proof.Machine

@[simp] theorem raise_eq_finish (c : ResultCode) (s : State) : raise c s = finish c s := rfl

@[simp] theorem finish_k (c : ResultCode) (s : State) : (finish c s).k = s.k := rfl
@[simp] theorem finish_nHi (c : ResultCode) (s : State) : (finish c s).nHi = s.nHi := rfl
@[simp] theorem finish_nLo (c : ResultCode) (s : State) : (finish c s).nLo = s.nLo := rfl
@[simp] theorem finish_r (c : ResultCode) (s : State) : (finish c s).r = s.r := rfl
@[simp] theorem finish_st (c : ResultCode) (s : State) : (finish c s).st = .idle := rfl
@[simp] theorem finish_lCmd (c : ResultCode) (s : State) : (finish c s).lCmd = s.lCmd := rfl
@[simp] theorem finish_lKey (c : ResultCode) (s : State) : (finish c s).lKey = s.lKey := rfl
@[simp] theorem finish_lRkey (c : ResultCode) (s : State) : (finish c s).lRkey = s.lRkey := rfl
@[simp] theorem finish_lKeyid (c : ResultCode) (s : State) : (finish c s).lKeyid = s.lKeyid := rfl
@[simp] theorem finish_usageT (c : ResultCode) (s : State) : (finish c s).usageT = s.usageT := rfl
@[simp] theorem finish_keyLo (c : ResultCode) (s : State) : (finish c s).keyLo = s.keyLo := rfl
@[simp] theorem finish_keyHi (c : ResultCode) (s : State) : (finish c s).keyHi = s.keyHi := rfl
@[simp] theorem finish_dinHi (c : ResultCode) (s : State) : (finish c s).dinHi = s.dinHi := rfl
@[simp] theorem finish_dinLo (c : ResultCode) (s : State) : (finish c s).dinLo = s.dinLo := rfl
@[simp] theorem finish_rkey (c : ResultCode) (s : State) : (finish c s).rkey = s.rkey := rfl
@[simp] theorem finish_keyId (c : ResultCode) (s : State) : (finish c s).keyId = s.keyId := rfl
@[simp] theorem finish_cfg (c : ResultCode) (s : State) : (finish c s).cfg = s.cfg := rfl
@[simp] theorem finish_doutHi (c : ResultCode) (s : State) : (finish c s).doutHi = s.doutHi := rfl
@[simp] theorem finish_doutLo (c : ResultCode) (s : State) : (finish c s).doutLo = s.doutLo := rfl
@[simp] theorem finish_uplen (c : ResultCode) (s : State) : (finish c s).uplen = s.uplen := rfl
@[simp] theorem finish_done (c : ResultCode) (s : State) : (finish c s).done = true := rfl
@[simp] theorem finish_keyvalid (c : ResultCode) (s : State) : (finish c s).keyvalid = s.keyvalid := rfl
@[simp] theorem finish_result (c : ResultCode) (s : State) : (finish c s).result = c := rfl
@[simp] theorem finish_warn (c : ResultCode) (s : State) : (finish c s).warn = (s.warn || decide (c = .warn)) := rfl
@[simp] theorem finish_ovr (c : ResultCode) (s : State) : (finish c s).ovr = s.ovr := rfl
@[simp] theorem finish_sbox (c : ResultCode) (s : State) : (finish c s).sbox = s.sbox := rfl
@[simp] theorem finish_params (c : ResultCode) (s : State) : (finish c s).params = s.params := rfl
@[simp] theorem finish_inputs (c : ResultCode) (s : State) : (finish c s).inputs = s.inputs := rfl
@[simp] theorem finish_rdata (c : ResultCode) (s : State) : (finish c s).rdata = s.rdata := rfl

@[simp] theorem writeDout_k (h l : Word) (s : State) : (writeDout h l s).k = s.k := rfl
@[simp] theorem writeDout_nHi (h l : Word) (s : State) : (writeDout h l s).nHi = s.nHi := rfl
@[simp] theorem writeDout_nLo (h l : Word) (s : State) : (writeDout h l s).nLo = s.nLo := rfl
@[simp] theorem writeDout_r (h l : Word) (s : State) : (writeDout h l s).r = s.r := rfl
@[simp] theorem writeDout_st (h l : Word) (s : State) : (writeDout h l s).st = s.st := rfl
@[simp] theorem writeDout_lCmd (h l : Word) (s : State) : (writeDout h l s).lCmd = s.lCmd := rfl
@[simp] theorem writeDout_lKey (h l : Word) (s : State) : (writeDout h l s).lKey = s.lKey := rfl
@[simp] theorem writeDout_lRkey (h l : Word) (s : State) : (writeDout h l s).lRkey = s.lRkey := rfl
@[simp] theorem writeDout_lKeyid (h l : Word) (s : State) : (writeDout h l s).lKeyid = s.lKeyid := rfl
@[simp] theorem writeDout_usageT (h l : Word) (s : State) : (writeDout h l s).usageT = s.usageT := rfl
@[simp] theorem writeDout_keyLo (h l : Word) (s : State) : (writeDout h l s).keyLo = s.keyLo := rfl
@[simp] theorem writeDout_keyHi (h l : Word) (s : State) : (writeDout h l s).keyHi = s.keyHi := rfl
@[simp] theorem writeDout_dinHi (h l : Word) (s : State) : (writeDout h l s).dinHi = s.dinHi := rfl
@[simp] theorem writeDout_dinLo (h l : Word) (s : State) : (writeDout h l s).dinLo = s.dinLo := rfl
@[simp] theorem writeDout_rkey (h l : Word) (s : State) : (writeDout h l s).rkey = s.rkey := rfl
@[simp] theorem writeDout_keyId (h l : Word) (s : State) : (writeDout h l s).keyId = s.keyId := rfl
@[simp] theorem writeDout_cfg (h l : Word) (s : State) : (writeDout h l s).cfg = s.cfg := rfl
@[simp] theorem writeDout_doutHi (h l : Word) (s : State) : (writeDout h l s).doutHi = h := rfl
@[simp] theorem writeDout_doutLo (h l : Word) (s : State) : (writeDout h l s).doutLo = l := rfl
@[simp] theorem writeDout_uplen (h l : Word) (s : State) : (writeDout h l s).uplen = s.uplen := rfl
@[simp] theorem writeDout_done (h l : Word) (s : State) : (writeDout h l s).done = s.done := rfl
@[simp] theorem writeDout_keyvalid (h l : Word) (s : State) : (writeDout h l s).keyvalid = s.keyvalid := rfl
@[simp] theorem writeDout_result (h l : Word) (s : State) : (writeDout h l s).result = s.result := rfl
@[simp] theorem writeDout_warn (h l : Word) (s : State) : (writeDout h l s).warn = s.warn := rfl
@[simp] theorem writeDout_ovr (h l : Word) (s : State) : (writeDout h l s).ovr = s.ovr := rfl
@[simp] theorem writeDout_sbox (h l : Word) (s : State) : (writeDout h l s).sbox = s.sbox := rfl
@[simp] theorem writeDout_params (h l : Word) (s : State) : (writeDout h l s).params = s.params := rfl
@[simp] theorem writeDout_inputs (h l : Word) (s : State) : (writeDout h l s).inputs = s.inputs := rfl
@[simp] theorem writeDout_rdata (h l : Word) (s : State) : (writeDout h l s).rdata = s.rdata := rfl

@[simp] theorem setUsage_k (j v : Word) (s : State) : (setUsage j v s).k = s.k := rfl
@[simp] theorem setUsage_nHi (j v : Word) (s : State) : (setUsage j v s).nHi = s.nHi := rfl
@[simp] theorem setUsage_nLo (j v : Word) (s : State) : (setUsage j v s).nLo = s.nLo := rfl
@[simp] theorem setUsage_r (j v : Word) (s : State) : (setUsage j v s).r = s.r := rfl
@[simp] theorem setUsage_st (j v : Word) (s : State) : (setUsage j v s).st = s.st := rfl
@[simp] theorem setUsage_lCmd (j v : Word) (s : State) : (setUsage j v s).lCmd = s.lCmd := rfl
@[simp] theorem setUsage_lKey (j v : Word) (s : State) : (setUsage j v s).lKey = s.lKey := rfl
@[simp] theorem setUsage_lRkey (j v : Word) (s : State) : (setUsage j v s).lRkey = s.lRkey := rfl
@[simp] theorem setUsage_lKeyid (j v : Word) (s : State) : (setUsage j v s).lKeyid = s.lKeyid := rfl
@[simp] theorem setUsage_usageT (j v : Word) (s : State) : (setUsage j v s).usageT = s.usageT.set j.toNat v := rfl
@[simp] theorem setUsage_keyLo (j v : Word) (s : State) : (setUsage j v s).keyLo = s.keyLo := rfl
@[simp] theorem setUsage_keyHi (j v : Word) (s : State) : (setUsage j v s).keyHi = s.keyHi := rfl
@[simp] theorem setUsage_dinHi (j v : Word) (s : State) : (setUsage j v s).dinHi = s.dinHi := rfl
@[simp] theorem setUsage_dinLo (j v : Word) (s : State) : (setUsage j v s).dinLo = s.dinLo := rfl
@[simp] theorem setUsage_rkey (j v : Word) (s : State) : (setUsage j v s).rkey = s.rkey := rfl
@[simp] theorem setUsage_keyId (j v : Word) (s : State) : (setUsage j v s).keyId = s.keyId := rfl
@[simp] theorem setUsage_cfg (j v : Word) (s : State) : (setUsage j v s).cfg = s.cfg := rfl
@[simp] theorem setUsage_doutHi (j v : Word) (s : State) : (setUsage j v s).doutHi = s.doutHi := rfl
@[simp] theorem setUsage_doutLo (j v : Word) (s : State) : (setUsage j v s).doutLo = s.doutLo := rfl
@[simp] theorem setUsage_uplen (j v : Word) (s : State) : (setUsage j v s).uplen = s.uplen := rfl
@[simp] theorem setUsage_done (j v : Word) (s : State) : (setUsage j v s).done = s.done := rfl
@[simp] theorem setUsage_keyvalid (j v : Word) (s : State) : (setUsage j v s).keyvalid = s.keyvalid := rfl
@[simp] theorem setUsage_result (j v : Word) (s : State) : (setUsage j v s).result = s.result := rfl
@[simp] theorem setUsage_warn (j v : Word) (s : State) : (setUsage j v s).warn = s.warn := rfl
@[simp] theorem setUsage_ovr (j v : Word) (s : State) : (setUsage j v s).ovr = s.ovr := rfl
@[simp] theorem setUsage_sbox (j v : Word) (s : State) : (setUsage j v s).sbox = s.sbox := rfl
@[simp] theorem setUsage_params (j v : Word) (s : State) : (setUsage j v s).params = s.params := rfl
@[simp] theorem setUsage_inputs (j v : Word) (s : State) : (setUsage j v s).inputs = s.inputs := rfl
@[simp] theorem setUsage_rdata (j v : Word) (s : State) : (setUsage j v s).rdata = s.rdata := rfl

@[simp] theorem acceptCmd_k (v : Word) (s : State) : (acceptCmd v s).k = s.k := rfl
@[simp] theorem acceptCmd_nHi (v : Word) (s : State) : (acceptCmd v s).nHi = s.dinHi := rfl
@[simp] theorem acceptCmd_nLo (v : Word) (s : State) : (acceptCmd v s).nLo = s.dinLo := rfl
@[simp] theorem acceptCmd_r (v : Word) (s : State) : (acceptCmd v s).r = s.r := rfl
@[simp] theorem acceptCmd_st (v : Word) (s : State) : (acceptCmd v s).st = .start := rfl
@[simp] theorem acceptCmd_lCmd (v : Word) (s : State) : (acceptCmd v s).lCmd = v := rfl
@[simp] theorem acceptCmd_lKey (v : Word) (s : State) : (acceptCmd v s).lKey = keyOperand s.keyLo s.keyHi := rfl
@[simp] theorem acceptCmd_lRkey (v : Word) (s : State) : (acceptCmd v s).lRkey = s.rkey := rfl
@[simp] theorem acceptCmd_lKeyid (v : Word) (s : State) : (acceptCmd v s).lKeyid = keyIdField s.params.keyIdBits s.keyId := rfl
@[simp] theorem acceptCmd_usageT (v : Word) (s : State) : (acceptCmd v s).usageT = s.usageT := rfl
@[simp] theorem acceptCmd_keyLo (v : Word) (s : State) : (acceptCmd v s).keyLo = s.keyLo := rfl
@[simp] theorem acceptCmd_keyHi (v : Word) (s : State) : (acceptCmd v s).keyHi = s.keyHi := rfl
@[simp] theorem acceptCmd_dinHi (v : Word) (s : State) : (acceptCmd v s).dinHi = s.dinHi := rfl
@[simp] theorem acceptCmd_dinLo (v : Word) (s : State) : (acceptCmd v s).dinLo = s.dinLo := rfl
@[simp] theorem acceptCmd_rkey (v : Word) (s : State) : (acceptCmd v s).rkey = s.rkey := rfl
@[simp] theorem acceptCmd_keyId (v : Word) (s : State) : (acceptCmd v s).keyId = s.keyId := rfl
@[simp] theorem acceptCmd_cfg (v : Word) (s : State) : (acceptCmd v s).cfg = s.cfg := rfl
@[simp] theorem acceptCmd_doutHi (v : Word) (s : State) : (acceptCmd v s).doutHi = s.doutHi := rfl
@[simp] theorem acceptCmd_doutLo (v : Word) (s : State) : (acceptCmd v s).doutLo = s.doutLo := rfl
@[simp] theorem acceptCmd_uplen (v : Word) (s : State) : (acceptCmd v s).uplen = s.uplen := rfl
@[simp] theorem acceptCmd_done (v : Word) (s : State) : (acceptCmd v s).done = false := rfl
@[simp] theorem acceptCmd_keyvalid (v : Word) (s : State) : (acceptCmd v s).keyvalid = s.keyvalid := rfl
@[simp] theorem acceptCmd_result (v : Word) (s : State) : (acceptCmd v s).result = s.result := rfl
@[simp] theorem acceptCmd_warn (v : Word) (s : State) : (acceptCmd v s).warn = s.warn := rfl
@[simp] theorem acceptCmd_ovr (v : Word) (s : State) : (acceptCmd v s).ovr = s.ovr := rfl
@[simp] theorem acceptCmd_sbox (v : Word) (s : State) : (acceptCmd v s).sbox = s.sbox := rfl
@[simp] theorem acceptCmd_params (v : Word) (s : State) : (acceptCmd v s).params = s.params := rfl
@[simp] theorem acceptCmd_inputs (v : Word) (s : State) : (acceptCmd v s).inputs = s.inputs := rfl
@[simp] theorem acceptCmd_rdata (v : Word) (s : State) : (acceptCmd v s).rdata = s.rdata := rfl

@[simp] theorem statusWrite_k (v : Word) (s : State) : (statusWrite v s).k = s.k := rfl
@[simp] theorem statusWrite_nHi (v : Word) (s : State) : (statusWrite v s).nHi = s.nHi := rfl
@[simp] theorem statusWrite_nLo (v : Word) (s : State) : (statusWrite v s).nLo = s.nLo := rfl
@[simp] theorem statusWrite_r (v : Word) (s : State) : (statusWrite v s).r = s.r := rfl
@[simp] theorem statusWrite_st (v : Word) (s : State) : (statusWrite v s).st = s.st := rfl
@[simp] theorem statusWrite_lCmd (v : Word) (s : State) : (statusWrite v s).lCmd = s.lCmd := rfl
@[simp] theorem statusWrite_lKey (v : Word) (s : State) : (statusWrite v s).lKey = s.lKey := rfl
@[simp] theorem statusWrite_lRkey (v : Word) (s : State) : (statusWrite v s).lRkey = s.lRkey := rfl
@[simp] theorem statusWrite_lKeyid (v : Word) (s : State) : (statusWrite v s).lKeyid = s.lKeyid := rfl
@[simp] theorem statusWrite_usageT (v : Word) (s : State) : (statusWrite v s).usageT = s.usageT := rfl
@[simp] theorem statusWrite_keyLo (v : Word) (s : State) : (statusWrite v s).keyLo = s.keyLo := rfl
@[simp] theorem statusWrite_keyHi (v : Word) (s : State) : (statusWrite v s).keyHi = s.keyHi := rfl
@[simp] theorem statusWrite_dinHi (v : Word) (s : State) : (statusWrite v s).dinHi = s.dinHi := rfl
@[simp] theorem statusWrite_dinLo (v : Word) (s : State) : (statusWrite v s).dinLo = s.dinLo := rfl
@[simp] theorem statusWrite_rkey (v : Word) (s : State) : (statusWrite v s).rkey = s.rkey := rfl
@[simp] theorem statusWrite_keyId (v : Word) (s : State) : (statusWrite v s).keyId = s.keyId := rfl
@[simp] theorem statusWrite_cfg (v : Word) (s : State) : (statusWrite v s).cfg = s.cfg := rfl
@[simp] theorem statusWrite_doutHi (v : Word) (s : State) : (statusWrite v s).doutHi = s.doutHi := rfl
@[simp] theorem statusWrite_doutLo (v : Word) (s : State) : (statusWrite v s).doutLo = s.doutLo := rfl
@[simp] theorem statusWrite_uplen (v : Word) (s : State) : (statusWrite v s).uplen = s.uplen := rfl
@[simp] theorem statusWrite_done (v : Word) (s : State) : (statusWrite v s).done = (s.done && !v.getLsbD 1) := rfl
@[simp] theorem statusWrite_keyvalid (v : Word) (s : State) : (statusWrite v s).keyvalid = s.keyvalid := rfl
@[simp] theorem statusWrite_result (v : Word) (s : State) : (statusWrite v s).result = s.result := rfl
@[simp] theorem statusWrite_warn (v : Word) (s : State) : (statusWrite v s).warn = (s.warn && !v.getLsbD 16) := rfl
@[simp] theorem statusWrite_ovr (v : Word) (s : State) : (statusWrite v s).ovr = (s.ovr && !v.getLsbD 17) := rfl
@[simp] theorem statusWrite_sbox (v : Word) (s : State) : (statusWrite v s).sbox = s.sbox := rfl
@[simp] theorem statusWrite_params (v : Word) (s : State) : (statusWrite v s).params = s.params := rfl
@[simp] theorem statusWrite_inputs (v : Word) (s : State) : (statusWrite v s).inputs = s.inputs := rfl
@[simp] theorem statusWrite_rdata (v : Word) (s : State) : (statusWrite v s).rdata = s.rdata := rfl

@[simp] theorem beginRounds_k (s : State) : (beginRounds s).k = s.k := rfl
@[simp] theorem beginRounds_nHi (s : State) : (beginRounds s).nHi = s.nHi := rfl
@[simp] theorem beginRounds_nLo (s : State) : (beginRounds s).nLo = s.nLo := rfl
@[simp] theorem beginRounds_r (s : State) : (beginRounds s).r = 0 := rfl
@[simp] theorem beginRounds_st (s : State) : (beginRounds s).st = .rounds := rfl
@[simp] theorem beginRounds_lCmd (s : State) : (beginRounds s).lCmd = s.lCmd := rfl
@[simp] theorem beginRounds_lKey (s : State) : (beginRounds s).lKey = s.lKey := rfl
@[simp] theorem beginRounds_lRkey (s : State) : (beginRounds s).lRkey = s.lRkey := rfl
@[simp] theorem beginRounds_lKeyid (s : State) : (beginRounds s).lKeyid = s.lKeyid := rfl
@[simp] theorem beginRounds_usageT (s : State) : (beginRounds s).usageT = s.usageT := rfl
@[simp] theorem beginRounds_keyLo (s : State) : (beginRounds s).keyLo = s.keyLo := rfl
@[simp] theorem beginRounds_keyHi (s : State) : (beginRounds s).keyHi = s.keyHi := rfl
@[simp] theorem beginRounds_dinHi (s : State) : (beginRounds s).dinHi = s.dinHi := rfl
@[simp] theorem beginRounds_dinLo (s : State) : (beginRounds s).dinLo = s.dinLo := rfl
@[simp] theorem beginRounds_rkey (s : State) : (beginRounds s).rkey = s.rkey := rfl
@[simp] theorem beginRounds_keyId (s : State) : (beginRounds s).keyId = s.keyId := rfl
@[simp] theorem beginRounds_cfg (s : State) : (beginRounds s).cfg = s.cfg := rfl
@[simp] theorem beginRounds_doutHi (s : State) : (beginRounds s).doutHi = s.doutHi := rfl
@[simp] theorem beginRounds_doutLo (s : State) : (beginRounds s).doutLo = s.doutLo := rfl
@[simp] theorem beginRounds_uplen (s : State) : (beginRounds s).uplen = s.uplen := rfl
@[simp] theorem beginRounds_done (s : State) : (beginRounds s).done = s.done := rfl
@[simp] theorem beginRounds_keyvalid (s : State) : (beginRounds s).keyvalid = s.keyvalid := rfl
@[simp] theorem beginRounds_result (s : State) : (beginRounds s).result = s.result := rfl
@[simp] theorem beginRounds_warn (s : State) : (beginRounds s).warn = s.warn := rfl
@[simp] theorem beginRounds_ovr (s : State) : (beginRounds s).ovr = s.ovr := rfl
@[simp] theorem beginRounds_sbox (s : State) : (beginRounds s).sbox = s.sbox := rfl
@[simp] theorem beginRounds_params (s : State) : (beginRounds s).params = s.params := rfl
@[simp] theorem beginRounds_inputs (s : State) : (beginRounds s).inputs = s.inputs := rfl
@[simp] theorem beginRounds_rdata (s : State) : (beginRounds s).rdata = s.rdata := rfl

@[simp] theorem takeInput_k (s : State) : (takeInput s).k = s.k := rfl
@[simp] theorem takeInput_nHi (s : State) : (takeInput s).nHi = s.nHi := rfl
@[simp] theorem takeInput_nLo (s : State) : (takeInput s).nLo = s.nLo := rfl
@[simp] theorem takeInput_r (s : State) : (takeInput s).r = s.r := rfl
@[simp] theorem takeInput_st (s : State) : (takeInput s).st = s.st := rfl
@[simp] theorem takeInput_lCmd (s : State) : (takeInput s).lCmd = s.lCmd := rfl
@[simp] theorem takeInput_lKey (s : State) : (takeInput s).lKey = s.lKey := rfl
@[simp] theorem takeInput_lRkey (s : State) : (takeInput s).lRkey = s.lRkey := rfl
@[simp] theorem takeInput_lKeyid (s : State) : (takeInput s).lKeyid = s.lKeyid := rfl
@[simp] theorem takeInput_usageT (s : State) : (takeInput s).usageT = s.usageT := rfl
@[simp] theorem takeInput_keyLo (s : State) : (takeInput s).keyLo = s.keyLo := rfl
@[simp] theorem takeInput_keyHi (s : State) : (takeInput s).keyHi = s.keyHi := rfl
@[simp] theorem takeInput_dinHi (s : State) : (takeInput s).dinHi = s.dinHi := rfl
@[simp] theorem takeInput_dinLo (s : State) : (takeInput s).dinLo = s.dinLo := rfl
@[simp] theorem takeInput_rkey (s : State) : (takeInput s).rkey = s.rkey := rfl
@[simp] theorem takeInput_keyId (s : State) : (takeInput s).keyId = s.keyId := rfl
@[simp] theorem takeInput_cfg (s : State) : (takeInput s).cfg = s.cfg := rfl
@[simp] theorem takeInput_doutHi (s : State) : (takeInput s).doutHi = s.doutHi := rfl
@[simp] theorem takeInput_doutLo (s : State) : (takeInput s).doutLo = s.doutLo := rfl
@[simp] theorem takeInput_uplen (s : State) : (takeInput s).uplen = s.uplen := rfl
@[simp] theorem takeInput_done (s : State) : (takeInput s).done = s.done := rfl
@[simp] theorem takeInput_keyvalid (s : State) : (takeInput s).keyvalid = s.keyvalid := rfl
@[simp] theorem takeInput_result (s : State) : (takeInput s).result = s.result := rfl
@[simp] theorem takeInput_warn (s : State) : (takeInput s).warn = s.warn := rfl
@[simp] theorem takeInput_ovr (s : State) : (takeInput s).ovr = s.ovr := rfl
@[simp] theorem takeInput_sbox (s : State) : (takeInput s).sbox = s.sbox := rfl
@[simp] theorem takeInput_params (s : State) : (takeInput s).params = s.params := rfl
@[simp] theorem takeInput_inputs (s : State) : (takeInput s).inputs = s.inputs.tail := rfl
@[simp] theorem takeInput_rdata (s : State) : (takeInput s).rdata = s.rdata := rfl

end Sys2Proof.Machine
end

