-- ==== Sys2Proof/Laws/Ops.lean ====
section
/-! SUPPORT. What each shared operation can do, said once: the charge, the CMD write, a bus write, the register map and reset. -/

namespace Sys2Proof.Machine

/-- A charge succeeds exactly under the ceiling, and then it stores the new total. -/
theorem charge_eq_some_iff (j : Word) (s t : State) :
    charge j s = some t ↔
      (usageAt s j).toNat + Config.chargeBytes ≤ s.params.ceilBytes ∧
        t = setUsage j (BitVec.ofNat 32 ((usageAt s j).toNat + Config.chargeBytes)) s := by
  unfold charge
  split
  · simp only [reduceCtorEq, false_iff, not_and]; omega
  · rename_i h
    simp only [Option.some.injEq, eq_comm (a := t), Nat.not_lt.1 h, true_and]

/-- A charge is refused exactly above the ceiling. -/
theorem charge_eq_none_iff (j : Word) (s : State) :
    charge j s = none ↔ s.params.ceilBytes < (usageAt s j).toNat + Config.chargeBytes := by
  unfold charge
  split <;> simp_all

theorem cmdWrite_idle {s : State} (h : s.st = .idle) (v : Word) : cmdWrite v s = acceptCmd v s := by
  simp [cmdWrite, h]

theorem cmdWrite_busy {s : State} (h : s.st ≠ .idle) (v : Word) : cmdWrite v s = { s with ovr := true } := by
  simp [cmdWrite, h]

/-- A register stands at its own word index. -/
@[simp] theorem regAt_addr (reg : Reg) : regAt reg.addr = some reg := by
  cases reg with
  | kx i => revert i; decide
  | _ => rfl

/-- Two states that agree on everything the engine holds and on everything a command writes: they may differ in the host-writable
registers, the flags a host write reaches, and the ports. -/
structure SameEngine (s t : State) : Prop where
  k : t.k = s.k
  nHi : t.nHi = s.nHi
  nLo : t.nLo = s.nLo
  r : t.r = s.r
  st : t.st = s.st
  lCmd : t.lCmd = s.lCmd
  lKey : t.lKey = s.lKey
  lRkey : t.lRkey = s.lRkey
  lKeyid : t.lKeyid = s.lKeyid
  usageT : t.usageT = s.usageT
  doutHi : t.doutHi = s.doutHi
  doutLo : t.doutLo = s.doutLo
  uplen : t.uplen = s.uplen
  keyvalid : t.keyvalid = s.keyvalid
  result : t.result = s.result
  sbox : t.sbox = s.sbox
  params : t.params = s.params

theorem SameEngine.refl (s : State) : SameEngine s s := by constructor <;> rfl

theorem SameEngine.symm {s t : State} (h : SameEngine s t) : SameEngine t s := by
  constructor <;> simp [h.k, h.nHi, h.nLo, h.r, h.st, h.lCmd, h.lKey, h.lRkey, h.lKeyid, h.usageT, h.doutHi, h.doutLo,
    h.uplen, h.keyvalid, h.result, h.sbox, h.params]

theorem SameEngine.trans {s t u : State} (h : SameEngine s t) (h' : SameEngine t u) : SameEngine s u :=
  ⟨h'.k.trans h.k, h'.nHi.trans h.nHi, h'.nLo.trans h.nLo, h'.r.trans h.r, h'.st.trans h.st, h'.lCmd.trans h.lCmd,
    h'.lKey.trans h.lKey, h'.lRkey.trans h.lRkey, h'.lKeyid.trans h.lKeyid, h'.usageT.trans h.usageT,
    h'.doutHi.trans h.doutHi, h'.doutLo.trans h.doutLo, h'.uplen.trans h.uplen, h'.keyvalid.trans h.keyvalid,
    h'.result.trans h.result, h'.sbox.trans h.sbox, h'.params.trans h.params⟩

/-- A bus write reaches nothing of the engine while it is busy. -/
theorem writeWord_sameEngine {s : State} (h : s.st ≠ .idle) (addr : BitVec 6) (v : Word) :
    SameEngine s (writeWord addr v s) := by
  unfold writeWord
  split
  · rename_i reg _
    cases reg <;> simp only [writeReg, cmdWrite_busy h] <;> constructor <;> rfl
  · exact .refl s

/-- What a bus write does to an idle machine: it accepts a command, or it leaves the engine as it is. -/
theorem writeWord_idle {s : State} (h : s.st = .idle) (addr : BitVec 6) (v : Word) :
    (addr = 0 ∧ writeWord addr v s = acceptCmd v s) ∨ SameEngine s (writeWord addr v s) := by
  by_cases ha : addr = 0
  · subst ha
    exact .inl ⟨rfl, cmdWrite_idle h v⟩
  · right
    unfold writeWord
    split
    · rename_i reg hreg
      cases reg with
      | cmd =>
        exfalso; revert addr; decide
      | _ => constructor <;> rfl
    · exact .refl s

/-- No bus write sets DONE, and only the host's own three bits and registers move besides the engine. -/
theorem writeWord_flags (addr : BitVec 6) (v : Word) (s : State) :
    (writeWord addr v s).inputs = s.inputs ∧ (writeWord addr v s).rdata = s.rdata ∧
      ((writeWord addr v s).done = true → s.done = true) ∧ ((writeWord addr v s).warn = true → s.warn = true) := by
  unfold writeWord
  split
  · rename_i reg _
    cases reg <;> simp only [writeReg, cmdWrite] <;> first | (split <;> simp) | simp +contextual
  · simp

end Sys2Proof.Machine
end

