-- ==== Sys2Proof/Laws/Engine.lean ====
section
/-! SUPPORT. What one engine step can do, said once: one case per way a command's step ends. -/

namespace Sys2Proof.Machine

/-- The engine step runs the command it decodes. -/
theorem engineStep_ok {s : State} {i : Instr} (h : decodeCmd s.lCmd = .ok i) : engineStep s = exec i s := by
  simp only [engineStep, h]

/-- The engine step on a word that is no command. -/
theorem engineStep_illegal {s : State} (h : ∀ i, decodeCmd s.lCmd ≠ .ok i) :
    engineStep s = .next (finish .eIllegal s) := by
  unfold engineStep
  cases hd : decodeCmd s.lCmd with
  | ok i => exact absurd hd (h i)
  | error e => rfl

/-- The cases of one engine step from `s`, by the state it leaves. -/
inductive EngineCase (s : State) : State → Prop
  | illegal (h : ∀ i, decodeCmd s.lCmd ≠ .ok i) : EngineCase s (finish .eIllegal s)
  | nop (h : decodeCmd s.lCmd = .ok .nop) : EngineCase s (finish .ok s)
  | keyload (h : decodeCmd s.lCmd = .ok (.keyload 7)) :
      EngineCase s (finish .ok { s with k := expandKey s.lKey, keyvalid := true })
  | keyloadLength (klen : Nat) (h : decodeCmd s.lCmd = .ok (.keyload klen)) (h7 : klen ≠ 7) :
      EngineCase s (finish .eKeylen { s with keyvalid := false })
  | pad (n : Nat) (h : decodeCmd s.lCmd = .ok (.pad n)) :
      EngineCase s (finish .ok (writeDout (blockHi (padblk (s.nHi ++ s.nLo) n)) (blockLo (padblk (s.nHi ++ s.nLo) n)) s))
  | unpad (h : decodeCmd s.lCmd = .ok .unpad) :
      EngineCase s
        (finish (unpadblk (s.nHi ++ s.nLo)).1 { s with uplen := BitVec.ofNat 32 (unpadblk (s.nHi ++ s.nLo)).2 })
  | xformT (h : decodeCmd s.lCmd = .ok .xformT) : EngineCase s (finish .ok (writeDout 0 (xform s.sbox s.nLo) s))
  | roundG (h : decodeCmd s.lCmd = .ok .roundG) :
      EngineCase s (finish .ok (writeDout 0 (roundFn s.sbox s.nLo s.lRkey) s))
  | noKey (h : decodeCmd s.lCmd = .ok .enc ∨ decodeCmd s.lCmd = .ok .dec) (hst : s.st ≠ .rounds)
      (hk : s.keyvalid = false) : EngineCase s (finish .eNokey s)
  | exhausted (h : decodeCmd s.lCmd = .ok .enc) (hst : s.st ≠ .rounds) (hk : s.keyvalid = true)
      (hc : s.params.ceilBytes < (usageAt s s.lKeyid).toNat + Config.chargeBytes) : EngineCase s (finish .eExhausted s)
  | encBegin (h : decodeCmd s.lCmd = .ok .enc) (hst : s.st ≠ .rounds) (hk : s.keyvalid = true)
      (hc : (usageAt s s.lKeyid).toNat + Config.chargeBytes ≤ s.params.ceilBytes) :
      EngineCase s
        (beginRounds (setUsage s.lKeyid (BitVec.ofNat 32 ((usageAt s s.lKeyid).toNat + Config.chargeBytes)) s))
  | decBegin (h : decodeCmd s.lCmd = .ok .dec) (hst : s.st ≠ .rounds) (hk : s.keyvalid = true) :
      EngineCase s (beginRounds s)
  | encRound (h : decodeCmd s.lCmd = .ok .enc) (hst : s.st = .rounds) :
      EngineCase s (roundsStep (encKey s.k s.r.toNat) (encCode s) s)
  | decRound (h : decodeCmd s.lCmd = .ok .dec) (hst : s.st = .rounds) :
      EngineCase s (roundsStep (decKey s.k s.r.toNat) .ok s)

/-- ENC while its rounds run. -/
theorem execEnc_rounds {s : State} (h : s.st = .rounds) :
    exec .enc s = .next (roundsStep (encKey s.k s.r.toNat) (encCode s) s) := by
  simp only [exec, execEnc, h]

/-- ENC otherwise: its START step. -/
theorem execEnc_start {s : State} (h : s.st ≠ .rounds) : exec .enc s = .next (encStart s) := by
  unfold exec execEnc; cases hst : s.st <;> simp_all

/-- DEC while its rounds run. -/
theorem execDec_rounds {s : State} (h : s.st = .rounds) :
    exec .dec s = .next (roundsStep (decKey s.k s.r.toNat) .ok s) := by
  simp only [exec, execDec, h]

/-- DEC otherwise: its START step. -/
theorem execDec_start {s : State} (h : s.st ≠ .rounds) : exec .dec s = .next (decStart s) := by
  unfold exec execDec; cases hst : s.st <;> simp_all

theorem encStart_noKey {s : State} (hk : s.keyvalid = false) : encStart s = finish .eNokey s := by
  simp [encStart, hk]

theorem encStart_exhausted {s : State} (hk : s.keyvalid = true)
    (hc : s.params.ceilBytes < (usageAt s s.lKeyid).toNat + Config.chargeBytes) : encStart s = finish .eExhausted s := by
  simp [encStart, hk, (charge_eq_none_iff s.lKeyid s).2 hc]

theorem encStart_begin {s : State} (hk : s.keyvalid = true)
    (hc : (usageAt s s.lKeyid).toNat + Config.chargeBytes ≤ s.params.ceilBytes) :
    encStart s =
      beginRounds (setUsage s.lKeyid (BitVec.ofNat 32 ((usageAt s s.lKeyid).toNat + Config.chargeBytes)) s) := by
  simp [encStart, hk, (charge_eq_some_iff s.lKeyid s _).2 ⟨hc, rfl⟩]

theorem decStart_noKey {s : State} (hk : s.keyvalid = false) : decStart s = finish .eNokey s := by
  simp [decStart, hk]

theorem decStart_begin {s : State} (hk : s.keyvalid = true) : decStart s = beginRounds s := by
  simp [decStart, hk]

/-- A ROUNDS step before the last one. -/
theorem roundsStep_middle {s : State} (h : s.r.toNat < 31) (rk : Word) (code : ResultCode) :
    roundsStep rk code s = { s with nHi := s.nLo, nLo := s.nHi ^^^ roundFn s.sbox s.nLo rk, r := s.r + 1 } :=
  if_pos h

/-- The last ROUNDS step. -/
theorem roundsStep_last {s : State} (h : ¬s.r.toNat < 31) (rk : Word) (code : ResultCode) :
    roundsStep rk code s =
      finish code
        (writeDout (s.nHi ^^^ roundFn s.sbox s.nLo rk) s.nLo { s with nHi := s.nHi ^^^ roundFn s.sbox s.nLo rk }) :=
  if_neg h

/-- The START step of ENC as one of the cases. -/
theorem encStart_case {s : State} (h : decodeCmd s.lCmd = .ok .enc) (hst : s.st ≠ .rounds) :
    EngineCase s (encStart s) := by
  by_cases hk : s.keyvalid = false
  · exact encStart_noKey hk ▸ .noKey (.inl h) hst hk
  · have hk : s.keyvalid = true := by simpa using hk
    by_cases hc : s.params.ceilBytes < (usageAt s s.lKeyid).toNat + Config.chargeBytes
    · exact encStart_exhausted hk hc ▸ .exhausted h hst hk hc
    · exact encStart_begin hk (Nat.not_lt.1 hc) ▸ .encBegin h hst hk (Nat.not_lt.1 hc)

/-- The START step of DEC as one of the cases. -/
theorem decStart_case {s : State} (h : decodeCmd s.lCmd = .ok .dec) (hst : s.st ≠ .rounds) :
    EngineCase s (decStart s) := by
  by_cases hk : s.keyvalid = false
  · exact decStart_noKey hk ▸ .noKey (.inr h) hst hk
  · have hk : s.keyvalid = true := by simpa using hk
    exact decStart_begin hk ▸ .decBegin h hst hk

/-- Every engine step answers a next state, and it is one of the cases. -/
theorem engineStep_case (s : State) : ∃ t, engineStep s = .next t ∧ EngineCase s t := by
  unfold engineStep
  cases h : decodeCmd s.lCmd with
  | error e => exact ⟨_, rfl, .illegal fun i hi => by simp [h] at hi⟩
  | ok i =>
    cases i with
    | nop => exact ⟨_, rfl, .nop h⟩
    | keyload klen =>
      by_cases h7 : klen = 7
      · subst h7
        exact ⟨_, rfl, .keyload h⟩
      · exact ⟨finish .eKeylen { s with keyvalid := false }, by simp [exec, execKeyload, h7], .keyloadLength klen h h7⟩
    | enc =>
      by_cases hst : s.st = .rounds
      · exact ⟨_, execEnc_rounds hst, .encRound h hst⟩
      · exact ⟨_, execEnc_start hst, encStart_case h hst⟩
    | dec =>
      by_cases hst : s.st = .rounds
      · exact ⟨_, execDec_rounds hst, .decRound h hst⟩
      · exact ⟨_, execDec_start hst, decStart_case h hst⟩
    | pad n => exact ⟨_, rfl, .pad n h⟩
    | unpad => exact ⟨_, rfl, .unpad h⟩
    | xformT => exact ⟨_, rfl, .xformT h⟩
    | roundG => exact ⟨_, rfl, .roundG h⟩
    | buswr a v => exact absurd (decodeCmd_isCommand h) (by simp [Instr.isCommand])
    | busrd a => exact absurd (decodeCmd_isCommand h) (by simp [Instr.isCommand])

/-- The inversion of the engine step. -/
theorem engineStep_cases {s t : State} (h : engineStep s = .next t) : EngineCase s t := by
  obtain ⟨u, hu, hc⟩ := engineStep_case s
  obtain rfl : u = t := by simpa [hu] using h
  exact hc

/-- What no engine step changes: the host's registers, OVR, the latches, the ROM, the parameters and the ports. -/
structure EngineKeeps (s t : State) : Prop where
  lCmd : t.lCmd = s.lCmd
  lKey : t.lKey = s.lKey
  lRkey : t.lRkey = s.lRkey
  lKeyid : t.lKeyid = s.lKeyid
  keyLo : t.keyLo = s.keyLo
  keyHi : t.keyHi = s.keyHi
  dinHi : t.dinHi = s.dinHi
  dinLo : t.dinLo = s.dinLo
  rkey : t.rkey = s.rkey
  keyId : t.keyId = s.keyId
  cfg : t.cfg = s.cfg
  ovr : t.ovr = s.ovr
  sbox : t.sbox = s.sbox
  params : t.params = s.params
  inputs : t.inputs = s.inputs
  rdata : t.rdata = s.rdata

theorem roundsStep_keeps (rk : Word) (code : ResultCode) (s : State) : EngineKeeps s (roundsStep rk code s) := by
  by_cases h : s.r.toNat < 31
  · rw [roundsStep_middle h]; constructor <;> rfl
  · rw [roundsStep_last h]; constructor <;> rfl

theorem EngineCase.keeps {s t : State} (h : EngineCase s t) : EngineKeeps s t := by
  cases h with
  | encRound => exact roundsStep_keeps _ _ s
  | decRound => exact roundsStep_keeps _ _ s
  | _ => constructor <;> rfl

/-- The two ways an engine step ends: the command finishes, with DONE set and with WARN set if that is its code; or its rounds go on
and no result has changed. -/
inductive EngineEnd (s t : State) : Prop
  | finished (st : t.st = .idle) (done : t.done = true) (warn : t.warn = (s.warn || decide (t.result = .warn)))
  | goesOn (st : t.st = .rounds) (done : t.done = s.done) (warn : t.warn = s.warn) (result : t.result = s.result)
      (doutHi : t.doutHi = s.doutHi) (doutLo : t.doutLo = s.doutLo) (uplen : t.uplen = s.uplen)
      (keyvalid : t.keyvalid = s.keyvalid) (k : t.k = s.k)

theorem roundsStep_end {s : State} (hst : s.st = .rounds) (rk : Word) (code : ResultCode) :
    EngineEnd s (roundsStep rk code s) := by
  by_cases h : s.r.toNat < 31
  · rw [roundsStep_middle h]; exact .goesOn hst rfl rfl rfl rfl rfl rfl rfl rfl
  · rw [roundsStep_last h]; exact .finished rfl rfl rfl

theorem EngineCase.ends {s t : State} (h : EngineCase s t) : EngineEnd s t := by
  cases h with
  | encRound _ hst => exact roundsStep_end hst _ _
  | decRound _ hst => exact roundsStep_end hst _ _
  | encBegin => exact .goesOn rfl rfl rfl rfl rfl rfl rfl rfl rfl
  | decBegin => exact .goesOn rfl rfl rfl rfl rfl rfl rfl rfl rfl
  | _ => exact .finished rfl rfl rfl

/-- An engine step leaves the usage table alone, but for the START step of an ENC that passes its checks. -/
theorem EngineCase.usage {s t : State} (h : EngineCase s t) :
    t.usageT = s.usageT ∨
      (decodeCmd s.lCmd = .ok .enc ∧ s.st ≠ .rounds ∧ s.keyvalid = true ∧ t.st = .rounds ∧
        (usageAt s s.lKeyid).toNat + Config.chargeBytes ≤ s.params.ceilBytes ∧
        t.usageT = s.usageT.set s.lKeyid.toNat (BitVec.ofNat 32 ((usageAt s s.lKeyid).toNat + Config.chargeBytes))) := by
  cases h with
  | encBegin hd hst hk hc => exact .inr ⟨hd, hst, hk, rfl, hc, rfl⟩
  | encRound => left; unfold roundsStep; split <;> rfl
  | decRound => left; unfold roundsStep; split <;> rfl
  | _ => exact .inl rfl

end Sys2Proof.Machine
end

