-- ==== Sys2Proof/Laws/Cycle.lean ====
section
/-! SUPPORT. What one clock cycle can do, said once: the transaction's part, the engine's part, and the cycle as a whole. -/

namespace Sys2Proof.Machine

/-- The state the host's part of a cycle leaves. -/
def afterHost (p : PortIn) (s : State) : State :=
  if p.sel then
    if p.we then writeWord p.addr p.wdata (clearRdata s) else { s with rdata := some (readWord s p.addr) }
  else clearRdata s

theorem clearRdata_sameEngine (s : State) : SameEngine s (clearRdata s) := by constructor <;> rfl

/-- The port's value is no part of what a read returns. -/
theorem readWord_clearRdata (s : State) (a : BitVec 6) : readWord (clearRdata s) a = readWord s a := rfl

theorem PortIn.instr_eq (p : PortIn) : p.instr = if p.we then .buswr p.addr p.wdata else .busrd p.addr := by
  unfold PortIn.instr
  cases p.we <;> simp

/-- The host's part of a cycle answers a next state. -/
theorem hostPhase_eq (p : PortIn) (s : State) : hostPhase p (clearRdata s) = .next (afterHost p s) := by
  unfold hostPhase afterHost
  rw [PortIn.instr_eq]
  cases p.sel <;> cases p.we <;> rfl

/-- The host's part reaches nothing of a busy engine. -/
theorem afterHost_sameEngine {s : State} (h : s.st ≠ .idle) (p : PortIn) : SameEngine s (afterHost p s) := by
  unfold afterHost
  split
  · split
    · exact (clearRdata_sameEngine s).trans (writeWord_sameEngine (s := clearRdata s) h _ _)
    · constructor <;> rfl
  · constructor <;> rfl

/-- The host's part on an idle machine accepts a command or leaves the engine as it is. -/
theorem afterHost_idle {s : State} (h : s.st = .idle) (p : PortIn) :
    (p.sel = true ∧ p.we = true ∧ p.addr = 0 ∧ afterHost p s = acceptCmd p.wdata (clearRdata s)) ∨
      SameEngine s (afterHost p s) := by
  unfold afterHost
  split
  · split
    · rename_i h1 h2
      rcases writeWord_idle (s := clearRdata s) h p.addr p.wdata with ⟨ha, hw⟩ | hw
      · exact .inl ⟨h1, h2, ha, hw⟩
      · exact .inr ((clearRdata_sameEngine s).trans hw)
    · right; constructor <;> rfl
  · right; constructor <;> rfl

/-- The host's part takes no port values away and sets neither DONE nor WARN. -/
theorem afterHost_flags (p : PortIn) (s : State) :
    (afterHost p s).inputs = s.inputs ∧ ((afterHost p s).done = true → s.done = true) ∧
      ((afterHost p s).warn = true → s.warn = true) := by
  unfold afterHost
  split
  · split
    · have h := writeWord_flags p.addr p.wdata (clearRdata s)
      exact ⟨h.1, h.2.2.1, h.2.2.2⟩
    · simp
  · simp [clearRdata]

/-- A cycle with reset. -/
theorem clockCycle_reset {p : PortIn} (h : p.rst = true) (s : State) : clockCycle p s = .next (applyReset p s) := by
  simp [clockCycle, h]

/-- A cycle without reset that finds the engine idle. -/
theorem clockCycle_idle {p : PortIn} {s : State} (h : p.rst = false) (hst : s.st = .idle) :
    clockCycle p s = .next (afterHost p s) := by
  simp [clockCycle, h, hostPhase_eq, enginePhase, State.busy, hst]

/-- A cycle without reset that finds the engine busy. -/
theorem clockCycle_busy {p : PortIn} {s : State} (h : p.rst = false) (hst : s.st ≠ .idle) :
    clockCycle p s = engineStep (afterHost p s) := by
  simp [clockCycle, h, hostPhase_eq, enginePhase, State.busy, hst]

/-- Every cycle answers a next state. -/
theorem clockCycle_next (p : PortIn) (s : State) : ∃ t, clockCycle p s = .next t := by
  by_cases hr : p.rst = true
  · exact ⟨_, clockCycle_reset hr s⟩
  · have hr : p.rst = false := by simpa using hr
    by_cases hst : s.st = .idle
    · exact ⟨_, clockCycle_idle hr hst⟩
    · obtain ⟨t, ht, -⟩ := engineStep_case (afterHost p s)
      exact ⟨t, (clockCycle_busy hr hst).trans ht⟩

/-- `afterCycle` is the state the cycle answers. -/
theorem clockCycle_eq_next (p : PortIn) (s : State) : clockCycle p s = .next (afterCycle p s) := by
  obtain ⟨t, ht⟩ := clockCycle_next p s
  simp [afterCycle, ht]

/-- The three ways a cycle goes: reset, host alone, host and engine. -/
theorem clockCycle_cases {p : PortIn} {s t : State} (h : clockCycle p s = .next t) :
    (p.rst = true ∧ t = applyReset p s) ∨ (p.rst = false ∧ s.st = .idle ∧ t = afterHost p s) ∨
      (p.rst = false ∧ s.st ≠ .idle ∧ EngineCase (afterHost p s) t) := by
  by_cases hr : p.rst = true
  · rw [clockCycle_reset hr] at h
    exact .inl ⟨hr, by simpa using h.symm⟩
  · have hr : p.rst = false := by simpa using hr
    by_cases hst : s.st = .idle
    · rw [clockCycle_idle hr hst] at h
      exact .inr (.inl ⟨hr, hst, by simpa using h.symm⟩)
    · rw [clockCycle_busy hr hst] at h
      exact .inr (.inr ⟨hr, hst, engineStep_cases h⟩)

/-- A step under the port values that come next. -/
theorem step_cons {s : State} {p : PortIn} {rest : List PortIn} (h : s.inputs = p :: rest) :
    step s = clockCycle p { s with inputs := rest } := by
  simp [step, nextInput, takeInput, h]

/-- Every step answers a next state. -/
theorem step_next (s : State) : ∃ t, step s = .next t := clockCycle_next _ _

theorem takeInput_sameEngine (s : State) : SameEngine s (takeInput s) := by constructor <;> rfl

/-- A step without reset on a busy machine is an engine step of a state with the same engine, whatever the host does in the cycle. -/
theorem step_busy {s : State} (hr : (nextInput s).rst = false) (hb : s.st ≠ .idle) :
    ∃ u : State, SameEngine s u ∧ u.inputs = s.inputs.tail ∧ (u.done = true → s.done = true) ∧
      (u.warn = true → s.warn = true) ∧ step s = engineStep u :=
  ⟨afterHost (nextInput s) (takeInput s),
    (takeInput_sameEngine s).trans (afterHost_sameEngine (s := takeInput s) hb _),
    (afterHost_flags _ _).1, (afterHost_flags _ _).2.1, (afterHost_flags _ _).2.2,
    clockCycle_busy (s := takeInput s) hr hb⟩

/-- A host that asserts no reset asserts none in the next cycle. -/
theorem noReset_next {s : State} {n : Nat} (h : s.noReset (n + 1)) : (nextInput s).rst = false := by
  unfold nextInput
  unfold State.noReset at h
  cases hi : s.inputs with
  | nil => rfl
  | cons p ps => exact h p (by simp [hi])

/-- …and none in the cycles after it. -/
theorem noReset_tail {s t : State} {n : Nat} (h : s.noReset (n + 1)) (ht : t.inputs = s.inputs.tail) : t.noReset n := by
  unfold State.noReset at *
  intro p hp
  rw [ht] at hp
  cases hi : s.inputs with
  | nil => simp [hi] at hp
  | cons q ps => exact h p (by rw [hi] at hp ⊢; exact List.mem_cons_of_mem _ hp)

/-- A run of `n + 1` cycles is a step and a run of `n`. -/
theorem runCycles_succ {s t : State} (h : step s = .next t) (n : Nat) : runCycles (n + 1) s = runCycles n t := by
  have h : Sys2Proof.core.step s = .next t := h
  simp only [runCycles, Host.Core.run, h]
  rfl

theorem runCycles_zero (s : State) : runCycles 0 s = .next s := rfl

end Sys2Proof.Machine
end

