-- ==== Sys2Proof/Laws/Feistel.lean ====
section
/-! SUPPORT. The rounds: the block functions undo each other, and what a machine whose rounds run has computed so far. -/

namespace Sys2Proof.Machine

/-- One round, applied again to the exchanged halves, gives the exchanged halves back. -/
theorem swapRound_swap (sb : SBox) (k : Word) (p : Word × Word) :
    swapRound sb k (swapRound sb k p).swap = p.swap := by
  simp [swapRound, Prod.swap]

/-- `crypt` is the 32 swapped rounds and one exchange. -/
theorem crypt_eq_swap (sb : SBox) (ks : Nat → Word) (p : Word × Word) :
    crypt sb ks p = (swapRounds sb ks 32 p).swap := rfl

/-- Rounds under the reversed keys take rounds back, one by one. -/
theorem swapRounds_reverse (sb : SBox) (ks ks' : Nat → Word) (p : Word × Word) (n : Nat)
    (h : ∀ r, r < n → ks' r = ks (n - 1 - r)) :
    ∀ m, m ≤ n → swapRounds sb ks' m (swapRounds sb ks n p).swap = (swapRounds sb ks (n - m) p).swap := by
  intro m
  induction m with
  | zero => intro _; rfl
  | succ m ih =>
    intro hm
    rw [swapRounds, ih (by omega), show n - m = (n - (m + 1)) + 1 by omega, swapRounds, h m (by omega),
      show n - 1 - m = n - (m + 1) by omega, swapRound_swap]

/-- `crypt` under the reversed keys is the inverse of `crypt`. -/
theorem crypt_reverse (sb : SBox) (ks ks' : Nat → Word) (h : ∀ r, r < 32 → ks' r = ks (31 - r)) (p : Word × Word) :
    crypt sb ks' (crypt sb ks p) = p := by
  rw [crypt_eq_swap, crypt_eq_swap, swapRounds_reverse sb ks ks' p 32 h 32 (Nat.le_refl _)]
  rfl

/-- The machine `u` has run `n` rounds of the command that `s` holds in its latches, under the round keys `ks`. -/
structure InRounds (ks : Nat → Word) (s : State) (n : Nat) (u : State) : Prop where
  st : u.st = .rounds
  r : u.r.toNat = n
  pair : (u.nHi, u.nLo) = swapRounds s.sbox ks n (s.nHi, s.nLo)
  k : u.k = s.k
  keyvalid : u.keyvalid = s.keyvalid
  doutHi : u.doutHi = s.doutHi
  doutLo : u.doutLo = s.doutLo
  uplen : u.uplen = s.uplen
  sbox : u.sbox = s.sbox
  lCmd : u.lCmd = s.lCmd
  lKeyid : u.lKeyid = s.lKeyid
  usageT : u.usageT = s.usageT
  params : u.params = s.params

/-- The host's traffic does not reach the rounds. -/
theorem InRounds.sameEngine {ks : Nat → Word} {s u w : State} {n : Nat} (h : InRounds ks s n u) (e : SameEngine u w) :
    InRounds ks s n w :=
  ⟨e.st.trans h.st, (congrArg _ e.r).trans h.r, by rw [e.nHi, e.nLo]; exact h.pair, e.k.trans h.k,
    e.keyvalid.trans h.keyvalid, e.doutHi.trans h.doutHi, e.doutLo.trans h.doutLo, e.uplen.trans h.uplen,
    e.sbox.trans h.sbox, e.lCmd.trans h.lCmd, e.lKeyid.trans h.lKeyid, e.usageT.trans h.usageT, e.params.trans h.params⟩

/-- The round keys `ks` are those of the command in `s`'s latch. -/
def RoundKeysOf (ks : Nat → Word) (s : State) : Prop :=
  (decodeCmd s.lCmd = .ok .enc ∧ ks = encKey s.k) ∨ (decodeCmd s.lCmd = .ok .dec ∧ ks = decKey s.k)

/-- A round before the last one. -/
theorem InRounds.engineStep_middle {ks : Nat → Word} {s w : State} {n : Nat} (hk : RoundKeysOf ks s)
    (h : InRounds ks s n w) (hn : n < 31) :
    ∃ v, engineStep w = .next v ∧ InRounds ks s (n + 1) v ∧ EngineKeeps w v := by
  have hr : w.r.toNat < 31 := by rw [h.r]; exact hn
  have key : engineStep w = .next (roundsStep (ks n) .ok w) := by
    rcases hk with ⟨hk, rfl⟩ | ⟨hk, rfl⟩
    · rw [engineStep_ok (h.lCmd ▸ hk), execEnc_rounds h.st, roundsStep_middle hr, roundsStep_middle hr, h.r, h.k]
    · rw [engineStep_ok (h.lCmd ▸ hk), execDec_rounds h.st, h.r, h.k]
  refine ⟨_, key, ?_, roundsStep_keeps _ _ _⟩
  rw [roundsStep_middle hr]
  refine ⟨h.st, ?_, ?_, h.k, h.keyvalid, h.doutHi, h.doutLo, h.uplen, h.sbox, h.lCmd, h.lKeyid, h.usageT, h.params⟩
  · show (w.r + 1).toNat = n + 1
    rw [BitVec.toNat_add, h.r]
    exact Nat.mod_eq_of_lt (by simp; omega)
  · rw [swapRounds, ← h.pair, ← h.sbox]
    rfl

/-- The last round: DOUT holds `crypt` of the latched block, and the command has finished. -/
theorem InRounds.engineStep_last {ks : Nat → Word} {s w : State} (hk : RoundKeysOf ks s) (h : InRounds ks s 31 w) :
    ∃ v, engineStep w = .next v ∧ EngineKeeps w v ∧ v.st = .idle ∧ v.done = true ∧ v.r = w.r ∧
      (v.doutHi, v.doutLo) = crypt s.sbox ks (s.nHi, s.nLo) ∧
      v.result = (if decodeCmd s.lCmd = .ok .enc then encCode w else .ok) ∧
      v.warn = (w.warn || decide (v.result = .warn)) ∧ v.k = s.k ∧ v.keyvalid = s.keyvalid ∧ v.uplen = s.uplen ∧
      v.usageT = s.usageT := by
  have hr : ¬w.r.toNat < 31 := by rw [h.r]; omega
  have hd : ∀ code, ((finish code (writeDout (w.nHi ^^^ roundFn w.sbox w.nLo (ks 31)) w.nLo w)).doutHi,
      (finish code (writeDout (w.nHi ^^^ roundFn w.sbox w.nLo (ks 31)) w.nLo w)).doutLo) =
      crypt s.sbox ks (s.nHi, s.nLo) := by
    intro code
    rw [crypt, ← h.pair, ← h.sbox]
    rfl
  rcases hk with ⟨hk, rfl⟩ | ⟨hk, rfl⟩
  · refine ⟨_, (engineStep_ok (h.lCmd ▸ hk)).trans (execEnc_rounds h.st), roundsStep_keeps _ _ _, ?_⟩
    rw [roundsStep_last hr, if_pos hk, h.r, h.k]
    exact ⟨rfl, rfl, rfl, hd (encCode w), rfl, rfl, rfl, h.keyvalid, h.uplen, h.usageT⟩
  · refine ⟨_, (engineStep_ok (h.lCmd ▸ hk)).trans (execDec_rounds h.st), roundsStep_keeps _ _ _, ?_⟩
    rw [roundsStep_last hr, if_neg (by simp [hk]), h.r, h.k]
    exact ⟨rfl, rfl, rfl, hd .ok, rfl, rfl, rfl, h.keyvalid, h.uplen, h.usageT⟩

/-- The rounds begin after a START step that passes, with the table charged if the command is ENC. -/
theorem beginRounds_inRounds (ks : Nat → Word) (s : State) : InRounds ks s 0 (beginRounds s) := by
  constructor <;> rfl

end Sys2Proof.Machine
end

