-- ==== Sys2Proof/Laws/Host.lean ====
section
/-! SUPPORT. What the host's statements do: reads and writes of an idle machine, polls, and commands that end in one step. -/

namespace Sys2Proof.Machine

theorem flagBit_getLsbD (b : Bool) (i : Nat) : (flagBit b).getLsbD i = (decide (i = 0) && b) := by
  unfold flagBit
  cases b <;> simp

/-- The two fields of STATUS the host tests: BUSY and RESULT. -/
theorem status_busy_result (s : State) :
    (readWord s 1).getLsbD 0 = s.busy ∧ statusResult (readWord s 1) = s.result.code := by
  show (statusWord s).getLsbD 0 = s.busy ∧ (statusWord s).extractLsb' 4 4 = s.result.code
  unfold statusWord
  refine ⟨by simp [flagBit_getLsbD, BitVec.getLsbD_setWidth, -BitVec.getLsbD_eq_getElem], ?_⟩
  apply BitVec.eq_of_getLsbD_eq
  intro i hi
  interval_cases i <;>
    simp [BitVec.getLsbD_extractLsb', flagBit_getLsbD, BitVec.getLsbD_setWidth, -BitVec.getLsbD_eq_getElem]

/-- No two results have one number. -/
theorem ResultCode.code_eq_iff (a b : ResultCode) : a.code = b.code ↔ a = b := by
  cases a <;> cases b <;> decide

/-- A read of an idle machine. -/
theorem hostRd_idle {s : State} (h : s.st = .idle) (reg : Reg) :
    hostRd reg s = (readReg s reg, { s with rdata := some (readReg s reg) }) := by
  have hc : afterCycle (PortIn.read reg.addr) s = { s with rdata := some (readReg s reg) } := by
    have hc := clockCycle_idle (p := PortIn.read reg.addr) (s := s) rfl h
    rw [clockCycle_eq_next] at hc
    rw [Host.Outcome.next.inj hc]
    simp [afterHost, PortIn.read, readWord]
  simp [hostRd, HostStmt.port, hc]

/-- A write to an idle machine. -/
theorem hostWr_idle {s : State} (h : s.st = .idle) (reg : Reg) (v : Word) :
    hostWr reg v s = writeReg v (clearRdata s) reg := by
  have hc := clockCycle_idle (p := PortIn.write reg.addr v) (s := s) rfl h
  rw [clockCycle_eq_next] at hc
  rw [hostWr, HostStmt.port, Host.Outcome.next.inj hc]
  simp [afterHost, PortIn.write, writeWord]

/-- A read of a busy machine: the value is that of the state before the engine's step. -/
theorem hostRd_busy {s t : State} (h : s.st ≠ .idle) (reg : Reg)
    (ht : engineStep { s with rdata := some (readReg s reg) } = .next t) : hostRd reg s = (readReg s reg, t) := by
  have hc := clockCycle_busy (p := PortIn.read reg.addr) (s := s) rfl h
  rw [show afterHost (PortIn.read reg.addr) s = { s with rdata := some (readReg s reg) } by
    simp [afterHost, PortIn.read, readWord], ht, clockCycle_eq_next] at hc
  rw [hostRd, HostStmt.port, Host.Outcome.next.inj hc, (engineStep_cases ht).keeps.rdata]
  rfl

/-- A `wait` on an idle machine ends with the first poll. -/
theorem hostWait_idle {s : State} (h : s.st = .idle) (n : Nat) :
    hostWait (n + 1) s = some (readWord s 1, { s with rdata := some (readWord s 1) }) := by
  rw [hostWait, hostRd_idle h .status, if_neg]
  · rfl
  · show ¬(readWord s 1).getLsbD 0 = true
    rw [(status_busy_result s).1]
    simp [State.busy, h]

/-- A poll of a busy machine. -/
theorem hostWait_busy {s t : State} (h : s.st ≠ .idle)
    (ht : engineStep { s with rdata := some (readWord s 1) } = .next t) (n : Nat) :
    hostWait (n + 1) s = hostWait n t := by
  rw [hostWait, hostRd_busy h .status ht, if_pos]
  show (readWord s 1).getLsbD 0 = true
  rw [(status_busy_result s).1]
  simp [State.busy, h]

/-- The CMD write of an idle machine. -/
theorem runStmts_cmd {s : State} (h : s.st = .idle) (v : Word) :
    runStmts (cmdStmts v) s = acceptCmd v (clearRdata s) :=
  (hostWr_idle h .cmd v).trans (cmdWrite_idle (s := clearRdata s) h v)

/-- A command that ends in its START step. -/
theorem hostCmd_one {s b : State} (h : s.st = .idle) (v : Word)
    (hb : engineStep { acceptCmd v (clearRdata s) with rdata := some (readWord (acceptCmd v (clearRdata s)) 1) } = .next b)
    (hi : b.st = .idle) : hostCmd v s = some (readWord b 1, { b with rdata := some (readWord b 1) }) := by
  unfold hostCmd
  rw [runStmts_cmd h, pollLimit, hostWait_busy (by simp [acceptCmd]) hb, hostWait_idle hi]

/-- The polls through the rounds, up to the last one. -/
theorem hostWait_rounds {ks : Nat → Word} {s : State} (hk : RoundKeysOf ks s) :
    ∀ (m n : Nat) (u : State), n + m = 31 → InRounds ks s n u →
      ∃ v, hostWait (m + 2) u = hostWait 2 v ∧ InRounds ks s 31 v ∧ v.keyId = u.keyId := by
  intro m
  induction m with
  | zero =>
    intro n u hn h
    obtain rfl : n = 31 := by omega
    exact ⟨u, rfl, h, rfl⟩
  | succ m ih =>
    intro n u hn h
    have hw : InRounds ks s n { u with rdata := some (readWord u 1) } := h.sameEngine (by constructor <;> rfl)
    obtain ⟨v, hv, hr, hkeep⟩ := hw.engineStep_middle hk (by omega)
    obtain ⟨x, hx, hxr, hxid⟩ := ih (n + 1) v (by omega) hr
    refine ⟨x, ?_, hxr, hxid.trans hkeep.keyId⟩
    rw [show m + 1 + 2 = (m + 2) + 1 by omega, hostWait_busy (by simp [h.st]) hv]
    exact hx

theorem ldblk_idle {s : State} (h : s.st = .idle) (p : Word × Word) :
    ldblk p s = { s with dinHi := p.1, dinLo := p.2, rdata := none } := by
  have h1 : afterCycle (HostStmt.wr .dinHi p.1).port s = { s with dinHi := p.1, rdata := none } := hostWr_idle h .dinHi p.1
  have h2 := hostWr_idle (s := { s with dinHi := p.1, rdata := none }) h .dinLo p.2
  simp only [ldblk, ldblkStmts, runStmts]
  rw [h1]
  exact h2

theorem stblk_idle {s : State} (h : s.st = .idle) :
    stblk s = ((s.doutHi, s.doutLo), { s with rdata := some s.doutLo }) := by
  simp only [stblk]
  rw [hostRd_idle h]
  simp only
  rw [hostRd_idle (by exact h)]
  rfl

theorem mvblk_idle {s : State} (h : s.st = .idle) :
    mvblk s = { s with dinHi := s.doutHi, dinLo := s.doutLo, rdata := none } := by
  have h1 : hostWr .dinHi s.doutHi { s with rdata := some s.doutHi } = { s with dinHi := s.doutHi, rdata := none } :=
    hostWr_idle (by exact h) .dinHi _
  simp only [mvblk]
  rw [hostRd_idle h]
  simp only [readReg]
  rw [h1, hostRd_idle (by exact h)]
  exact hostWr_idle (by exact h) .dinLo _

end Sys2Proof.Machine
end

