-- ==== Sys2Proof/Laws/Invariants.lean ====
section
/-! SUPPORT. What keeps the invariants: the pieces a step is made of, one lemma each. -/

namespace Sys2Proof.Machine

/-- The ROM of the reset state obeys the permutation law. -/
theorem sbox_law : SBoxLaw Config.sbox := by
  intro i v w h
  simp only [sboxAt, Config.sbox] at h
  simp at h
  have := h
  exact BitVec.eq_of_toNat_eq (congrArg Fin.val this)

/-- A reset with a lawful ROM. -/
theorem resetOf_inv {sb : SBox} (h : SBoxLaw sb) (p : Config.Params) : (State.resetOf sb p).Inv := by
  have hpos : 0 < 2 ^ p.keyIdBits := Nat.two_pow_pos _
  constructor <;> simp [State.resetOf, h, hpos]

/-- What a key-identifier field holds is in range. -/
theorem keyIdField_lt {bits : Nat} (hb : bits ≤ 32) (v : Word) : (keyIdField bits v).toNat < 2 ^ bits := by
  unfold keyIdField
  have h1 : v.toNat % 2 ^ bits < 2 ^ bits := Nat.mod_lt _ (Nat.two_pow_pos _)
  have h2 : 2 ^ bits ≤ 2 ^ 32 := Nat.pow_le_pow_right (by decide) hb
  rw [BitVec.toNat_ofNat, Nat.mod_eq_of_lt (by omega)]
  exact h1

/-- A write of an identifier in range keeps it. -/
theorem keyIdField_of_lt {bits : Nat} {v : Word} (h : v.toNat < 2 ^ bits) : keyIdField bits v = v := by
  unfold keyIdField
  rw [Nat.mod_eq_of_lt h]
  simp

/-- The invariants reach from a state to one with the same engine whose host registers are legal. -/
theorem State.Inv.sameEngine {s t : State} (hi : s.Inv) (h : SameEngine s t) (hk : t.keyHi.extractLsb' 0 8 = 0)
    (hid : t.keyId.toNat < 2 ^ t.params.keyIdBits) (hc : t.cfg.toNat < 2) (hd : t.done = true → s.done = true) :
    t.Inv := by
  constructor
  · rw [h.usageT, h.params]; exact hi.usage_length
  · rw [h.usageT, h.params]; exact hi.usage_legal
  · exact hk
  · rw [h.uplen]; exact hi.uplen_le
  · exact hid
  · rw [h.lKeyid, h.params]; exact hi.lKeyid_lt
  · exact hc
  · rw [h.st, h.lCmd]; exact hi.rounds_cmd
  · rw [h.st, h.keyvalid]; exact hi.rounds_key
  · rw [h.st]
    intro h'
    have := hi.busy_not_done h'
    cases hh : t.done <;> simp_all
  · rw [h.sbox]; exact hi.sbox_law

theorem State.Inv.clearRdata {s : State} (hi : s.Inv) : (clearRdata s).Inv :=
  hi.sameEngine (clearRdata_sameEngine s) hi.keyHi_low hi.keyId_lt hi.cfg_lt id

/-- Acceptance keeps the invariants. -/
theorem State.Inv.acceptCmd {s : State} (hi : s.Inv) (v : Word) : (acceptCmd v s).Inv := by
  refine ⟨hi.usage_length, hi.usage_legal, hi.keyHi_low, hi.uplen_le, hi.keyId_lt,
    keyIdField_lt s.params.keyIdBits_le _, hi.cfg_lt, ?_, ?_, fun _ => rfl, hi.sbox_law⟩ <;>
  · intro h
    simp [Machine.acceptCmd] at h

/-- A bus write keeps the invariants. -/
theorem State.Inv.writeWord {s : State} (hi : s.Inv) (a : BitVec 6) (v : Word) : (writeWord a v s).Inv := by
  unfold Machine.writeWord
  split
  · rename_i reg _
    cases reg <;> simp only [writeReg]
    case cmd =>
      unfold cmdWrite
      split
      · exact hi.acceptCmd v
      · exact hi.sameEngine (by constructor <;> rfl) hi.keyHi_low hi.keyId_lt hi.cfg_lt id
    case status =>
      refine hi.sameEngine (by constructor <;> rfl) hi.keyHi_low hi.keyId_lt hi.cfg_lt ?_
      simp only [statusWrite, Bool.and_eq_true]
      exact fun h => h.1
    case keyHi =>
      refine hi.sameEngine (by constructor <;> rfl) ?_ hi.keyId_lt hi.cfg_lt id
      show (v.extractLsb' 8 24 ++ (0 : Byte)).extractLsb' 0 8 = 0
      rw [extract_append_right _ _ (Nat.le_refl _), extract_self]
    case keyId =>
      exact hi.sameEngine (by constructor <;> rfl) hi.keyHi_low (keyIdField_lt s.params.keyIdBits_le _) hi.cfg_lt id
    case cfg =>
      refine hi.sameEngine (by constructor <;> rfl) hi.keyHi_low hi.keyId_lt ?_ id
      show (cfgField v).toNat < 2
      unfold cfgField
      rw [BitVec.toNat_setWidth]
      have := (v.extractLsb' 0 1).isLt
      omega
    all_goals exact hi.sameEngine (by constructor <;> rfl) hi.keyHi_low hi.keyId_lt hi.cfg_lt id
  · exact hi

/-- The host's part of a cycle keeps the invariants. -/
theorem State.Inv.afterHost {s : State} (hi : s.Inv) (p : PortIn) : (afterHost p s).Inv := by
  unfold Machine.afterHost
  split
  · split
    · exact hi.clearRdata.writeWord _ _
    · exact hi.sameEngine (by constructor <;> rfl) hi.keyHi_low hi.keyId_lt hi.cfg_lt id
  · exact hi.clearRdata

/-- An engine step that finishes keeps the invariants. -/
theorem State.Inv.engineFinishes {s t : State} (hi : s.Inv) (hk : EngineKeeps s t) (hst : t.st = .idle)
    (hu : t.usageT = s.usageT) (hup : t.uplen.toNat ≤ 8) : t.Inv := by
  constructor
  · rw [hu, hk.params]; exact hi.usage_length
  · rw [hu, hk.params]; exact hi.usage_legal
  · rw [hk.keyHi]; exact hi.keyHi_low
  · exact hup
  · rw [hk.keyId, hk.params]; exact hi.keyId_lt
  · rw [hk.lKeyid, hk.params]; exact hi.lKeyid_lt
  · rw [hk.cfg]; exact hi.cfg_lt
  · intro h; simp [hst] at h
  · intro h; simp [hst] at h
  · intro h; simp [hst] at h
  · rw [hk.sbox]; exact hi.sbox_law

/-- An engine step into the rounds, or from one round to the next, keeps the invariants. -/
theorem State.Inv.engineGoesOn {s t : State} (hi : s.Inv) (hk : EngineKeeps s t)
    (hd : decodeCmd s.lCmd = .ok .enc ∨ decodeCmd s.lCmd = .ok .dec) (hkv : t.keyvalid = true) (hdn : t.done = false)
    (hul : t.usageT.length = s.usageT.length)
    (hu : ∀ u ∈ t.usageT, u.toNat % Config.chargeBytes = 0 ∧ u.toNat ≤ s.params.ceilBytes) (hup : t.uplen = s.uplen) :
    t.Inv := by
  constructor
  · rw [hul, hk.params]; exact hi.usage_length
  · rw [hk.params]; exact hu
  · rw [hk.keyHi]; exact hi.keyHi_low
  · rw [hup]; exact hi.uplen_le
  · rw [hk.keyId, hk.params]; exact hi.keyId_lt
  · rw [hk.lKeyid, hk.params]; exact hi.lKeyid_lt
  · rw [hk.cfg]; exact hi.cfg_lt
  · rw [hk.lCmd]; exact fun _ => hd
  · exact fun _ => hkv
  · exact fun _ => hdn
  · rw [hk.sbox]; exact hi.sbox_law

/-- A charge keeps the table legal. -/
theorem State.Inv.charged {s : State} (hi : s.Inv)
    (hc : (usageAt s s.lKeyid).toNat + Config.chargeBytes ≤ s.params.ceilBytes) :
    ∀ u ∈ s.usageT.set s.lKeyid.toNat (BitVec.ofNat 32 ((usageAt s s.lKeyid).toNat + Config.chargeBytes)),
      u.toNat % Config.chargeBytes = 0 ∧ u.toNat ≤ s.params.ceilBytes := by
  intro u hu
  rcases List.mem_or_eq_of_mem_set hu with h | rfl
  · exact hi.usage_legal u h
  · have hm : usageAt s s.lKeyid ∈ s.usageT := by
      have hl : s.lKeyid.toNat < s.usageT.length := by rw [hi.usage_length]; exact hi.lKeyid_lt
      simp [usageAt, List.getD_eq_getElem?_getD, hl]
    have := hi.usage_legal _ hm
    have hlt := s.params.ceil_lt
    simp only [Config.chargeBytes, BitVec.toNat_ofNat] at *
    omega

end Sys2Proof.Machine
end

