-- ==== Sys2Proof/Laws/Message.lean ====
section
/-! SUPPORT. Bytes, blocks and messages: the marker scan of a block, and cutting a byte sequence into blocks and joining it again. -/

namespace Sys2Proof.Machine

/-- The scan finds nothing in zeros. -/
theorem lastNonzero_none {b : Block} : ∀ n, (∀ j, j < n → blockByte b j = 0) → lastNonzero b n = none := by
  intro n
  induction n with
  | zero => intro _; rfl
  | succ n ih =>
    intro h
    rw [lastNonzero, if_neg (by simpa using h n (by omega)), ih fun j hj => h j (by omega)]

/-- The scan finds the last byte that is not zero. -/
theorem lastNonzero_some {b : Block} {p : Nat} (hp : blockByte b p ≠ 0) :
    ∀ n, p < n → (∀ j, p < j → j < n → blockByte b j = 0) → lastNonzero b n = some p := by
  intro n
  induction n with
  | zero => intro h; omega
  | succ n ih =>
    intro h hz
    rw [lastNonzero]
    by_cases hn : p = n
    · subst hn
      rw [if_pos hp]
    · rw [if_neg (by simpa using hz n (by omega) (by omega)), ih (by omega) fun j h1 h2 => hz j h1 (by omega)]

/-- The bytes of a pair of big-endian words. -/
theorem pairBytes_be32 (b0 b1 b2 b3 b4 b5 b6 b7 : Byte) :
    pairBytes (be32 b0 b1 b2 b3, be32 b4 b5 b6 b7) = [b0, b1, b2, b3, b4, b5, b6, b7] := by
  simp [pairBytes, wordByte_be32 b0 b1 b2 b3, wordByte_be32 b4 b5 b6 b7]

/-- The bytes of a block's two halves are the block's bytes. -/
theorem pairBytes_block (b : Block) : pairBytes (blockHi b, blockLo b) = (List.range 8).map (blockByte b) := by
  conv_rhs => rw [← blockHi_blockLo b]
  show _ = [_, _, _, _, _, _, _, _]
  simp only [blockByte_append _ _ (show 0 < 8 by decide), blockByte_append _ _ (show 1 < 8 by decide),
    blockByte_append _ _ (show 2 < 8 by decide), blockByte_append _ _ (show 3 < 8 by decide),
    blockByte_append _ _ (show 4 < 8 by decide), blockByte_append _ _ (show 5 < 8 by decide),
    blockByte_append _ _ (show 6 < 8 by decide), blockByte_append _ _ (show 7 < 8 by decide)]
  rfl

@[simp] theorem blocksBytes_nil : blocksBytes [] = [] := rfl

@[simp] theorem blocksBytes_cons (p : Word × Word) (ps : List (Word × Word)) :
    blocksBytes (p :: ps) = pairBytes p ++ blocksBytes ps := by
  simp [blocksBytes]

@[simp] theorem blocksBytes_append (ps qs : List (Word × Word)) :
    blocksBytes (ps ++ qs) = blocksBytes ps ++ blocksBytes qs := by
  simp [blocksBytes]

theorem blocksBytes_length (ps : List (Word × Word)) : (blocksBytes ps).length = 8 * ps.length := by
  induction ps with
  | nil => rfl
  | cons p ps ih =>
    rw [blocksBytes_cons, List.length_append, ih]
    simp [pairBytes]
    omega

/-- Cutting bytes that begin with whole blocks gives those blocks first. -/
theorem splitBlocks_append (ps : List (Word × Word)) (d : List Byte) :
    splitBlocks (blocksBytes ps ++ d) = (ps ++ (splitBlocks d).1, (splitBlocks d).2) := by
  induction ps with
  | nil => simp
  | cons p ps ih =>
    simp only [blocksBytes_cons, pairBytes, List.cons_append, List.nil_append, splitBlocks, ih, be32_wordByte]

/-- Cutting whole blocks gives the blocks back, and leaves nothing. -/
theorem splitBlocks_blocksBytes (ps : List (Word × Word)) : splitBlocks (blocksBytes ps) = (ps, []) := by
  simpa [splitBlocks] using splitBlocks_append ps []

/-- Padding adds nothing inside whole blocks. -/
theorem padMsg_append (ps : List (Word × Word)) (d : List Byte) :
    padMsg (blocksBytes ps ++ d) = blocksBytes ps ++ padMsg d := by
  simp [padMsg, blocksBytes_length]

/-- Joining what was cut gives the bytes back, and fewer than eight are left over. -/
theorem splitBlocks_join (d : List Byte) :
    blocksBytes (splitBlocks d).1 ++ (splitBlocks d).2 = d ∧ (splitBlocks d).2.length = d.length % 8 := by
  induction d using splitBlocks.induct with
  | case1 b0 b1 b2 b3 b4 b5 b6 b7 rest ih =>
    rw [splitBlocks]
    simp only [blocksBytes_cons, pairBytes_be32]
    refine ⟨by simpa using ih.1, ?_⟩
    rw [ih.2]
    simp
    omega
  | case2 short h =>
    rw [splitBlocks]
    · refine ⟨rfl, ?_⟩
      have hl : short.length < 8 := by
        by_contra hc
        match short, h, hc with
        | b0 :: b1 :: b2 :: b3 :: b4 :: b5 :: b6 :: b7 :: rest, h, _ => exact h b0 b1 b2 b3 b4 b5 b6 b7 rest rfl
        | [], _, h => simp at h
        | [_], _, h => simp at h
        | [_, _], _, h => simp at h
        | [_, _, _], _, h => simp at h
        | [_, _, _, _], _, h => simp at h
        | [_, _, _, _, _], _, h => simp at h
        | [_, _, _, _, _, _], _, h => simp at h
        | [_, _, _, _, _, _, _], _, h => simp at h
      exact (Nat.mod_eq_of_lt hl).symm
    · exact h

/-- The bytes of the tail block are the tail's, then zeros. -/
theorem blockByte_tailBlock (rest : List Byte) {j : Nat} (hj : j < 8) :
    blockByte ((tailBlock rest).1 ++ (tailBlock rest).2) j = rest.getD j 0 :=
  blockByte_blockOfBytes (fun j => rest.getD j 0) hj

end Sys2Proof.Machine
end

