-- ==== Sys2Proof/Tests/Slice0.lean ====
section
/-! SUPPORT. Tests: ill-formed terms that WellFormed refuses; words written out from 30_encoding.md R91, R92, R100 that decode; one or
two steps of every instruction against 95_test_vectors.md; and for every statement with hypotheses a witness that meets them. -/

namespace Sys2Proof.Machine

/-! ### Well-formedness -/

theorem test_wf_refuses_klen_16 : (Instr.keyload 16).wf = false := by decide
theorem test_wf_refuses_padn_8 : (Instr.pad 8).wf = false := by decide
theorem test_wf_accepts_the_largest_operands : (Instr.keyload 15).wf = true ∧ (Instr.pad 7).wf = true := by decide

/-! ### Decoding: RSV, PADN, KLEN and OP written out from R91; `we` and `addr` from R100 -/

theorem test_decode_nop : decodeCmd 0b000000000000000000000_000_0000_0000 = .ok .nop := by decide
theorem test_decode_keyload : decodeCmd 0b000000000000000000000_000_0111_0001 = .ok (.keyload 7) := by decide
theorem test_decode_enc : decodeCmd 0b000000000000000000000_000_0000_0010 = .ok .enc := by decide
theorem test_decode_dec : decodeCmd 0b000000000000000000000_000_0000_0011 = .ok .dec := by decide
theorem test_decode_pad : decodeCmd 0b000000000000000000000_101_0000_0100 = .ok (.pad 5) := by decide
theorem test_decode_unpad : decodeCmd 0b000000000000000000000_000_0000_0101 = .ok .unpad := by decide
theorem test_decode_xform_t : decodeCmd 0b000000000000000000000_000_0000_0110 = .ok .xformT := by decide
theorem test_decode_round_g : decodeCmd 0b000000000000000000000_000_0000_0111 = .ok .roundG := by decide
theorem test_decode_buswr : decodeBus 0b1_001001 5 = .buswr 9 5 := by decide
theorem test_decode_busrd : decodeBus 0b0_111111 5 = .busrd 63 := by decide
/-- V-C14 to V-C21. -/
theorem test_decode_illegal :
    decodeCmd 0x00000008 = .error .reservedOp ∧ decodeCmd 0x0000000F = .error .reservedOp ∧
    decodeCmd 0x00000072 = .error .klenOutsideKeyload ∧ decodeCmd 0x00000102 = .error .padnOutsidePad ∧
    decodeCmd 0x00000074 = .error .klenOutsideKeyload ∧ decodeCmd 0x00000105 = .error .padnOutsidePad ∧
    decodeCmd 0x00000800 = .error .reservedBits ∧ decodeCmd 0x80000002 = .error .reservedBits ∧
    decodeCmd 0x00000871 = .error .reservedBits := by decide

/-! ### Single steps, under SBOX_TC26Z -/

/-- The reset state with the reference table in the ROM. -/
def testState : State := State.resetOf Config.sboxTc26z Config.Params.default

/-- The state a step answered. -/
def answer : StepResult → State
  | .next t => t
  | .fault _ => testState
  | .refused _ => testState

/-- An accepted command at its START step, the operand block in the Feistel registers. -/
def started (cmd hi lo : Word) : State := { testState with st := .start, lCmd := cmd, nHi := hi, nLo := lo }

/-- A cipher command in its rounds, with the key 01 … 07. -/
def inRound (cmd hi lo : Word) (r : BitVec 5) : State :=
  { started cmd hi lo with st := .rounds, r := r, k := expandKey 0x01020304050607, keyvalid := true }

/-- V-C1. -/
theorem test_nop : statusWord (answer (exec .nop (started 0x0 0 0))) = 0x00000002 := by decide

/-- V-K4. -/
theorem test_keyload :
    (answer (exec (.keyload 7) { started 0x71 0 0 with lKey := 0x0123456789ABCD })).k =
      #v[0x01234567, 0x89ABCD01, 0x23456789, 0xABCD0123, 0x456789AB, 0xCD012345, 0x6789ABCD, 0x01234567] := by
  decide

/-- V-K9. -/
theorem test_keyload_length : statusWord (answer (exec (.keyload 8) (started 0x81 0 0))) = 0x00000022 := by decide

/-- V-F14, row 1. -/
theorem test_enc_round :
    (answer (exec .enc (inRound 0x2 0x76543210 0xCE20EB79 1))).nHi = 0xCE20EB79 ∧
      (answer (exec .enc (inRound 0x2 0x76543210 0xCE20EB79 1))).nLo = 0xC3FA5C3F := by
  decide

/-- V-F14, row 31. -/
theorem test_enc_last_round :
    (answer (exec .enc (inRound 0x2 0x3B364606 0xA5B63FAD 31))).doutHi = 0xBD9DE30E ∧
      (answer (exec .enc (inRound 0x2 0x3B364606 0xA5B63FAD 31))).doutLo = 0xA5B63FAD := by
  decide

/-- V-F15, row 1. -/
theorem test_dec_round :
    (answer (exec .dec (inRound 0x3 0xA5B63FAD 0x3B364606 1))).nHi = 0x3B364606 ∧
      (answer (exec .dec (inRound 0x3 0xA5B63FAD 0x3B364606 1))).nLo = 0xFB7D77EE := by
  decide

/-- V-F15, row 31. -/
theorem test_dec_last_round :
    (answer (exec .dec (inRound 0x3 0xCE20EB79 0x76543210 31))).doutHi = 0xFEDCBA98 ∧
      (answer (exec .dec (inRound 0x3 0xCE20EB79 0x76543210 31))).doutLo = 0x76543210 := by
  decide

/-- V-P4. -/
theorem test_pad :
    (answer (exec (.pad 3) (started 0x304 0x41424344 0x45464748))).doutHi = 0x41424380 ∧
      (answer (exec (.pad 3) (started 0x304 0x41424344 0x45464748))).doutLo = 0x00000000 := by
  decide

/-- V-P8. -/
theorem test_pad_last_byte :
    (answer (exec (.pad 7) (started 0x704 0x41424344 0x45464748))).doutHi = 0x41424344 ∧
      (answer (exec (.pad 7) (started 0x704 0x41424344 0x45464748))).doutLo = 0x45464780 := by
  decide

/-- V-P14. -/
theorem test_unpad_last_marker :
    (answer (exec .unpad (started 0x5 0x80808080 0x80808080))).result = .ok ∧
      (answer (exec .unpad (started 0x5 0x80808080 0x80808080))).uplen = 7 := by
  decide

/-- V-P16. -/
theorem test_unpad_bad :
    (answer (exec .unpad (started 0x5 0x41800000 0x000000FF))).result = .eBadpad ∧
      (answer (exec .unpad (started 0x5 0x41800000 0x000000FF))).uplen = 8 := by
  decide

/-- V-T3. -/
theorem test_xform_t : (answer (exec .xformT (started 0x6 0 0x01234567))).doutLo = 0x1EFADF59 := by decide

/-- V-G6, with DIN_HI = 0x11111111. -/
theorem test_round_g :
    (answer (exec .roundG { started 0x7 0x11111111 0xFEDCBA98 with lRkey := 0x87654321 })).doutLo = 0xFDCBC20C := by
  decide

/-- V-G4. -/
theorem test_round_g_wraps :
    (answer (exec .roundG { started 0x7 0 0xFFFFFFFF with lRkey := 0xFFFFFFFF })).doutLo = 0x6587F938 := by
  decide

/-- V-B5. -/
theorem test_buswr_key_hi : (answer (exec (.buswr 3 0x050607FF) testState)).keyHi = 0x05060700 := by decide

/-- V-B10. -/
theorem test_buswr_status :
    statusWord (answer (exec (.buswr 1 0xFFFFFFFF)
      { testState with ovr := true, warn := true, r := 31, result := .eIllegal, keyvalid := true, done := true })) =
      0x00001F54 := by decide

/-- V-B2. -/
theorem test_busrd_id : (answer (exec (.busrd 13) testState)).rdata = some 0x4D414701 := by decide

/-- V-B8. -/
theorem test_busrd_reserved : (answer (exec (.busrd 63) testState)).rdata = some 0 := by decide

/-- V-R6. -/
theorem test_rotl11 : rotl11 0x12345678 = 0xA2B3C091 := by decide

/-- V-E1, V-F1: the block functions. -/
theorem test_known_vector :
    encBlock Config.sboxTc26z (expandKey 0x01020304050607) 0xFEDCBA9876543210 = 0xBD9DE30EA5B63FAD ∧
      decBlock Config.sboxTc26z (expandKey 0x01020304050607) 0xFEDCBA9876543210 = 0xCDC2F1E2CA992981 := by
  decide

/-- V-M2 and V-M8: the byte-sequence codec. -/
theorem test_pad_message :
    padMsg [0x61, 0x62, 0x63] = [0x61, 0x62, 0x63, 0x80, 0, 0, 0, 0] ∧ unpadMsg [0, 0, 0, 0, 0, 0, 0, 0] = ([0, 0, 0, 0, 0, 0, 0, 0], true) := by
  decide

/-- `withFetchWord` runs the placed instruction next: V-C1 and V-B2 on the reset state. -/
theorem test_fetch_word :
    (answer (step (State.reset.withFetchWord 32 0x00000000))).done = true ∧
      (answer (step (State.reset.withFetchWord 7 0b0_001101))).rdata = some 0x4D414701 := by
  decide

/-! ### Witnesses: for each statement with hypotheses, a state and operands that meet them, clause by clause, at the ends of the
ranges -/

theorem testState_inv : testState.Inv := resetOf_inv (by unfold SBoxLaw; decide) _

/-- A key loaded, identifier 5 selected, the counter of identifier 5 at `total`. -/
def keyed (total : Word) : State :=
  { testState with
    k := expandKey 0x01020304050607, keyvalid := true, keyId := 5, lKeyid := 5, usageT := testState.usageT.set 5 total }

/-- The same with a command accepted. -/
def keyedStart (cmd total : Word) : State := { keyed total with st := .start, lCmd := cmd, nHi := 0xFEDCBA98, nLo := 0x76543210 }

/-- The same with its rounds under way. -/
def keyedRounds (cmd total : Word) (r : BitVec 5) : State := { keyedStart cmd total with st := .rounds, r := r }

theorem keyed_usage {total : Word} (h : total.toNat % 8 = 0 ∧ total.toNat ≤ 20480) :
    ∀ u ∈ testState.usageT.set 5 total, u.toNat % Config.chargeBytes = 0 ∧ u.toNat ≤ Config.Params.default.ceilBytes := by
  intro u hu
  rcases List.mem_or_eq_of_mem_set hu with hu | rfl
  · exact testState_inv.usage_legal u hu
  · exact h

theorem keyed_inv {total : Word} (h : total.toNat % 8 = 0 ∧ total.toNat ≤ 20480) : (keyed total).Inv :=
  ⟨(List.length_set ..).trans testState_inv.usage_length, keyed_usage h, testState_inv.keyHi_low, testState_inv.uplen_le,
    (by decide : (5 : Word).toNat < 2 ^ 4), (by decide : (5 : Word).toNat < 2 ^ 4), testState_inv.cfg_lt,
    testState_inv.rounds_cmd, fun _ => rfl, testState_inv.busy_not_done, testState_inv.sbox_law⟩

theorem keyedStart_inv {total : Word} (cmd : Word) (h : total.toNat % 8 = 0 ∧ total.toNat ≤ 20480) : (keyedStart cmd total).Inv :=
  ⟨(keyed_inv h).usage_length, keyed_usage h, testState_inv.keyHi_low, testState_inv.uplen_le, (keyed_inv h).keyId_lt,
    (keyed_inv h).lKeyid_lt, testState_inv.cfg_lt, fun hr => by simp [keyedStart] at hr, fun _ => rfl, fun _ => rfl,
    testState_inv.sbox_law⟩

theorem keyedRounds_inv : (keyedRounds 0x2 8 0).Inv ∧ (keyedRounds 0x3 8 31).Inv :=
  ⟨(keyedStart_inv 0x2 (by decide)).engineGoesOn (by constructor <;> rfl) (.inl (by decide)) rfl rfl rfl (keyed_usage (by decide)) rfl,
    (keyedStart_inv 0x3 (by decide)).engineGoesOn (by constructor <;> rfl) (.inr (by decide)) rfl rfl rfl (keyed_usage (by decide)) rfl⟩

theorem witness_DecodeInvertsEncode : (Instr.keyload 15).wf = true ∧ (Instr.pad 7).wf = true ∧ (Instr.buswr 63 0xFFFFFFFF).wf = true := by
  decide

theorem witness_LegalCommandWordHasOneMeaning :
    decodeCmd 0x000000F1 = .ok (.keyload 15) ∧ decodeCmd 0x00000704 = .ok (.pad 7) := by decide

theorem witness_IllegalWordsAndTheirEnd :
    (∀ i, decodeCmd 0x00000008 ≠ .ok i) ∧ (∀ i, decodeCmd 0x00000800 ≠ .ok i) ∧ (∀ i, decodeCmd 0x00000072 ≠ .ok i) ∧
      (∀ i, decodeCmd 0x00000102 ≠ .ok i) ∧ testState.st = .idle ∧
      ((started 0x8 0 0).st = .start ∧ (started 0x8 0 0).lCmd = 0x8) ∧ (inRound 0x2 0 0 31).st ≠ .idle := by
  have h : ∀ (c : Word) (r : IllegalReason), decodeCmd c = .error r → ∀ i, decodeCmd c ≠ .ok i := by
    intro c r hc i
    simp [hc]
  exact ⟨h _ .reservedOp (by decide), h _ .reservedBits (by decide), h _ .klenOutsideKeyload (by decide),
    h _ .padnOutsidePad (by decide), by decide, by decide, by decide⟩

theorem witness_BusTransactionsAreDecoded :
    (0 % 4 = 0 ∧ 0 < 0x100) ∧ (0xFC % 4 = 0 ∧ 0xFC < 0x100) ∧ (0xFD % 4 ≠ 0 ∨ 0x100 ≤ 0xFD) ∧ (0x100 % 4 ≠ 0 ∨ 0x100 ≤ 0x100) ∧
      testState.st = .idle := by decide

theorem witness_StepRunsTheDecodedInstructions :
    let quiet := { testState with inputs := [PortIn.idle] }
    let talking := { testState with inputs := [PortIn.write 0 0x2] }
    let quietBusy := { keyedRounds 0x2 8 31 with inputs := [PortIn.idle] }
    let talkingBusy := { keyedRounds 0x2 8 31 with inputs := [PortIn.read 1] }
    let quietIllegal := { started 0x8 0 0 with inputs := [PortIn.idle] }
    let talkingIllegal := { started 0x8 0 0 with inputs := [PortIn.write 0 0x2] }
    (quiet.inputs = PortIn.idle :: [] ∧ PortIn.idle.rst = false ∧ PortIn.idle.sel = false ∧ quiet.st = .idle) ∧
      (talking.inputs = PortIn.write 0 0x2 :: [] ∧ (PortIn.write 0 0x2).rst = false ∧ (PortIn.write 0 0x2).sel = true ∧
        talking.st = .idle) ∧
      (quietBusy.inputs = PortIn.idle :: [] ∧ quietBusy.st ≠ .idle ∧ decodeCmd quietBusy.lCmd = .ok .enc) ∧
      (talkingBusy.inputs = PortIn.read 1 :: [] ∧ (PortIn.read 1).sel = true ∧ talkingBusy.st ≠ .idle ∧
        decodeCmd talkingBusy.lCmd = .ok .enc) ∧
      (quietIllegal.inputs = PortIn.idle :: [] ∧ quietIllegal.st ≠ .idle ∧ decodeCmd quietIllegal.lCmd = .error .reservedOp) ∧
      (talkingIllegal.inputs = PortIn.write 0 0x2 :: [] ∧ talkingIllegal.st ≠ .idle ∧
        decodeCmd talkingIllegal.lCmd = .error .reservedOp) := by decide

theorem witness_HostWithNothingToDoIsAnIdleCycle : (keyedStart 0x2 8).inputs = [] := by decide

theorem witness_PlacedInstructionRunsNext :
    (decodeTableWord 32 0x00000002 = some .enc ∧ 8 < 32) ∧ (decodeTableWord 7 0x41 = some (.buswr 1 0) ∧ 7 ≤ 8 ∧ testState.st = .idle) := by
  decide

theorem witness_ResetLeavesTheResetTable :
    let s := { keyedRounds 0x2 8 31 with inputs := [PortIn.reset] }
    (s.inputs = PortIn.reset :: [] ∧ PortIn.reset.rst = true) ∧ ∃ t, step s = .next t :=
  ⟨by decide, _, rfl⟩

theorem witness_ResetOverridesTheCycle :
    let s := { keyedRounds 0x2 8 31 with inputs := [⟨true, true, false, 1, 0⟩, ⟨true, true, false, 63, 0⟩] }
    s.inputs = ⟨true, true, false, 1, 0⟩ :: [⟨true, true, false, 63, 0⟩] ∧
      (let s' := { testState with inputs := s.inputs }; s'.sbox = s.sbox ∧ s'.params = s.params ∧ s'.inputs = s.inputs) := by decide

theorem witness_BuswrWritesTheNamedRegister :
    testState.st = .idle ∧ (keyedStart 0x2 8).st ≠ .idle ∧ (6 : BitVec 6).toNat ∉ [0, 1, 2, 3, 4, 5, 8, 9, 12] ∧
      (63 : BitVec 6).toNat ∉ [0, 1, 2, 3, 4, 5, 8, 9, 12] := by decide

theorem witness_BusrdReturnsTheNamedRegister :
    ((16 : BitVec 6).toNat = 16 + (0 : Fin 8).val) ∧ ((23 : BitVec 6).toNat = 16 + (7 : Fin 8).val) ∧
      ((14 : BitVec 6).toNat = 14 ∨ (14 : BitVec 6).toNat = 15 ∨ 24 ≤ (14 : BitVec 6).toNat) ∧
      ((15 : BitVec 6).toNat = 14 ∨ (15 : BitVec 6).toNat = 15 ∨ 24 ≤ (15 : BitVec 6).toNat) ∧ 24 ≤ (24 : BitVec 6).toNat ∧
      24 ≤ (63 : BitVec 6).toNat := by decide

theorem witness_AcceptanceLatchesOperands : testState.st = .idle := by decide

theorem witness_CommandWriteWhileBusyIsDropped :
    let s := { keyedRounds 0x2 8 31 with inputs := [PortIn.write 0 0x3] }
    s.st ≠ .idle ∧ s.inputs = PortIn.write 0 0x3 :: [] := by decide

theorem witness_ReservedBitsReadZero : (keyed 20480).Inv := keyed_inv (by decide)

theorem witness_BuswrLeavesOtherWords :
    (∃ t, exec (.buswr 9 0xFFFFFFFF) testState = .next t) ∧ (11 : BitVec 6) ≠ 9 ∧ ¬((9 : BitVec 6) = 0 ∧ (11 : BitVec 6) = 1) ∧
      ¬((9 : BitVec 6) = 9 ∧ (11 : BitVec 6) = 10) := ⟨⟨_, rfl⟩, by decide⟩

theorem witness_WritableRegistersReadBack :
    (2 : BitVec 6).toNat ∈ [2, 3, 4, 5, 8, 9, 12] ∧ (12 : BitVec 6).toNat ∈ [2, 3, 4, 5, 8, 9, 12] := by decide

theorem witness_IrqIsEnableAndDone :
    ((0x2 : Word).getLsbD 1 = true ∧ ∃ t, exec (.buswr 1 0x2) testState = .next t) ∧
      (testState.st = .idle ∧ ∃ t, exec (.buswr 0 0x2) testState = .next t) ∧ (∃ t, exec (.buswr 12 1) testState = .next t) ∧
      ((started 0x0 0 0).st ≠ .idle ∧ ∃ t, engineStep (started 0x0 0 0) = .next t ∧ t.st = .idle) :=
  ⟨⟨by decide, _, rfl⟩, ⟨by decide, _, rfl⟩, ⟨_, rfl⟩, by decide, _, rfl, rfl⟩

theorem witness_KeyloadWritesTheExpandedKey :
    ({ started 0x71 0 0 with lKey := 0x0123456789ABCD } : State).lKey =
      (0x01 : Byte) ++ (0x23 : Byte) ++ (0x45 : Byte) ++ (0x67 : Byte) ++ (0x89 : Byte) ++ (0xAB : Byte) ++ (0xCD : Byte) := by
  decide

theorem witness_KeyloadOfAnotherLength :
    0 ≠ 7 ∧ 15 ≠ 7 ∧ (started 0x2 0 0).st = .start ∧ (started 0x2 0 0).keyvalid = false := by decide

theorem witness_RoundKeyOrder : 0 < 24 ∧ 23 < 24 ∧ (24 ≤ 24 ∧ 24 < 32) ∧ (24 ≤ 31 ∧ 31 < 32) := by decide

theorem witness_KeyloadIsAFunctionOfTheKey :
    (keyedStart 0x71 8).lKey = (started 0x71 0 0).lKey ∧ (∃ t, exec (.keyload 7) (keyedStart 0x71 8) = .next t) ∧
      ∃ t, exec (.keyload 7) (started 0x71 0 0) = .next t := ⟨by decide, ⟨_, rfl⟩, _, rfl⟩

theorem witness_RotatorMovesEachBit : 0 < 32 ∧ 20 < 32 ∧ 21 < 32 ∧ 31 < 32 := by decide

theorem witness_RoundFunctionIsBijective : SBoxLaw Config.sboxTc26z := testState_inv.sbox_law

theorem witness_CipherStartChecks :
    ((started 0x8 0 0).st = .start ∧ decodeCmd (started 0x8 0 0).lCmd = .error .reservedOp) ∧
      ((started 0x2 0 0).st = .start ∧ (started 0x2 0 0).keyvalid = false) ∧
      ((keyedStart 0x2 20480).st = .start ∧ (keyedStart 0x2 20480).keyvalid = true ∧
        (keyedStart 0x2 20480).params.ceilBytes <
          ((keyedStart 0x2 20480).usageT.getD (keyedStart 0x2 20480).lKeyid.toNat 0).toNat + 8) ∧
      ((keyedStart 0x2 20472).st = .start ∧ (keyedStart 0x2 20472).keyvalid = true ∧
        ((keyedStart 0x2 20472).usageT.getD (keyedStart 0x2 20472).lKeyid.toNat 0).toNat + 8 ≤
          (keyedStart 0x2 20472).params.ceilBytes) := by decide

theorem witness_MiddleRoundSwaps :
    ((keyedRounds 0x2 8 0).st = .rounds ∧ (keyedRounds 0x2 8 0).r.toNat < 31) ∧
      ((keyedRounds 0x3 8 30).st = .rounds ∧ (keyedRounds 0x3 8 30).r.toNat < 31) := by decide

theorem witness_LastRoundFinishes :
    ((keyedRounds 0x2 10240 31).st = .rounds ∧ (keyedRounds 0x2 10240 31).r.toNat = 31 ∧
        ((keyedRounds 0x2 10240 31).usageT.getD (keyedRounds 0x2 10240 31).lKeyid.toNat 0).toNat ≤
          (keyedRounds 0x2 10240 31).params.warnBytes) ∧
      ((keyedRounds 0x2 10248 31).st = .rounds ∧ (keyedRounds 0x2 10248 31).r.toNat = 31 ∧
        (keyedRounds 0x2 10248 31).params.warnBytes <
          ((keyedRounds 0x2 10248 31).usageT.getD (keyedRounds 0x2 10248 31).lKeyid.toNat 0).toNat) := by decide

/-- The host writes CMD once meanwhile, and asserts no reset. -/
def encBusy (total : Word) : State := { keyedStart 0x2 total with inputs := [PortIn.write 0 0x3] }

theorem encBusy_inv {total : Word} (h : total.toNat % 8 = 0 ∧ total.toNat ≤ 20480) : (encBusy total).Inv :=
  (keyedStart_inv 0x2 h).sameEngine (by constructor <;> rfl) testState_inv.keyHi_low (keyed_inv h).keyId_lt
    testState_inv.cfg_lt id

theorem witness_EncRunComputesE :
    (encBusy 20472).Inv ∧ (encBusy 20472).st = .start ∧ decodeCmd (encBusy 20472).lCmd = .ok .enc ∧ (encBusy 20472).keyvalid = true ∧
      ((encBusy 20472).usageT.getD (encBusy 20472).lKeyid.toNat 0).toNat + 8 ≤ (encBusy 20472).params.ceilBytes ∧
      (encBusy 20472).noReset 33 := ⟨encBusy_inv (by decide), by unfold State.noReset; decide⟩

theorem witness_DecRunComputesD :
    (keyedStart 0x3 20480).Inv ∧ (keyedStart 0x3 20480).st = .start ∧ decodeCmd (keyedStart 0x3 20480).lCmd = .ok .dec ∧
      (keyedStart 0x3 20480).keyvalid = true ∧ (keyedStart 0x3 20480).noReset 33 :=
  ⟨keyedStart_inv _ (by decide), by unfold State.noReset; decide⟩

theorem witness_PadWritesMarkerAndZeros : 0 < 8 ∧ 7 < 8 := by decide

theorem witness_UnpadFindsTheLastNonzeroByte :
    (∀ j, j < 8 → (0x0 : Block).extractLsb' (56 - 8 * j) 8 = (0 : Byte)) ∧
      (7 < 8 ∧ (0x80 : Block).extractLsb' (56 - 8 * 7) 8 ≠ (0 : Byte) ∧
        (∀ j, 7 < j → j < 8 → (0x80 : Block).extractLsb' (56 - 8 * j) 8 = (0 : Byte)) ∧
        (0x80 : Block).extractLsb' (56 - 8 * 7) 8 = (0x80 : Byte)) ∧
      (0 < 8 ∧ (0x4100000000000000 : Block).extractLsb' (56 - 8 * 0) 8 ≠ (0 : Byte) ∧
        (∀ j, 0 < j → j < 8 → (0x4100000000000000 : Block).extractLsb' (56 - 8 * j) 8 = (0 : Byte)) ∧
        (0x4100000000000000 : Block).extractLsb' (56 - 8 * 0) 8 ≠ (0x80 : Byte)) := by
  refine ⟨by decide, ⟨by decide, by decide, ?_, by decide⟩, by decide, by decide, ?_, by decide⟩
  · intro j h1 h2; omega
  · intro j h1 h2
    interval_cases j <;> decide

theorem witness_OnlyEncStartCharges :
    (nextInput (keyedStart 0x2 8)).rst = false ∧
      ∃ t, step (keyedStart 0x2 8) = .next t ∧ t.usageT ≠ (keyedStart 0x2 8).usageT := ⟨by decide, _, rfl, by decide⟩

theorem witness_UsageThresholdsByCount :
    (∀ n ∈ [0, 1279, 1280, 2559, 2560],
      (keyedStart 0x2 (BitVec.ofNat 32 (8 * n))).params = Config.Params.default ∧
        (keyedStart 0x2 (BitVec.ofNat 32 (8 * n))).st = .start ∧
        decodeCmd (keyedStart 0x2 (BitVec.ofNat 32 (8 * n))).lCmd = .ok .enc ∧
        (keyedStart 0x2 (BitVec.ofNat 32 (8 * n))).keyvalid = true ∧
        (∀ p ∈ (keyedStart 0x2 (BitVec.ofNat 32 (8 * n))).inputs.take 33, p.rst = false) ∧
        ((keyedStart 0x2 (BitVec.ofNat 32 (8 * n))).usageT.getD (keyedStart 0x2 (BitVec.ofNat 32 (8 * n))).lKeyid.toNat 0).toNat =
          8 * n) ∧
      ∀ n ∈ [0, 1279, 1280, 2559, 2560], (keyedStart 0x2 (BitVec.ofNat 32 (8 * n))).Inv := by
  refine ⟨by decide, fun n hn => keyedStart_inv _ ?_⟩
  revert n
  decide

theorem witness_StepKeepsTheInvariants :
    (testState.Inv ∧ (keyedStart 0x2 8).Inv ∧ (keyedRounds 0x2 8 0).Inv ∧ (keyedRounds 0x3 8 31).Inv) ∧
      ∃ t, step (keyedRounds 0x2 8 0) = .next t :=
  ⟨⟨testState_inv, keyedStart_inv _ (by decide), keyedRounds_inv⟩, _, rfl⟩

theorem witness_ResultsChangeOnlyAtTheFinish :
    (nextInput (keyedRounds 0x2 8 30)).rst = false ∧ testState.st = .idle ∧
      ∃ t, step (keyedRounds 0x2 8 30) = .next t ∧ t.st ≠ .idle := ⟨by decide, by decide, _, rfl, by decide⟩

theorem witness_KeyChangesOnlyByKeyload :
    (∃ t, step { keyedStart 0x71 8 with lKey := 0xFF } = .next t ∧ t.k ≠ (keyedStart 0x71 8).k) ∧
      ∃ t, step (keyedStart 0x81 8) = .next t ∧ t.keyvalid ≠ (keyedStart 0x81 8).keyvalid :=
  ⟨⟨_, rfl, by decide⟩, _, rfl, by decide⟩

theorem witness_FinishWinsOverClearing :
    let s := { keyedRounds 0x2 10248 31 with inputs := [PortIn.write 1 0x00030002] }
    (nextInput s).rst = false ∧ s.st ≠ .idle ∧ s.done = false ∧
      ∃ t, step s = .next t ∧ t.st = .idle ∧ t.done = true ∧ t.result = .warn :=
  ⟨by decide, by decide, by decide, _, rfl, by decide⟩

theorem witness_BusTrafficDoesNotReachACommand :
    (keyedRounds 0x2 8 31).st ≠ .idle ∧ (PortIn.write 4 0xFFFFFFFF).rst = false ∧ (PortIn.read 63).rst = false ∧
      (∃ t, clockCycle (PortIn.write 4 0xFFFFFFFF) (keyedRounds 0x2 8 31) = .next t) ∧
      ∃ t, clockCycle (PortIn.read 63) (keyedRounds 0x2 8 31) = .next t :=
  ⟨by decide, by decide, by decide, ⟨_, rfl⟩, _, rfl⟩

theorem witness_NoCommandIsLostSilently :
    let p := PortIn.write 0 0x3
    (p.rst = false ∧ p.sel = true ∧ p.we = true ∧ p.addr = 0) ∧ (∃ t, clockCycle p testState = .next t) ∧
      ∃ t, clockCycle p (keyedRounds 0x2 8 31) = .next t := ⟨by decide, ⟨_, rfl⟩, _, rfl⟩

theorem witness_EveryCommandFinishes :
    ((encBusy 8).Inv ∧ (encBusy 8).st ≠ .idle ∧ (encBusy 8).noReset 33) ∧
      ((keyedRounds 0x3 8 31).Inv ∧ (keyedRounds 0x3 8 31).st ≠ .idle ∧ (keyedRounds 0x3 8 31).noReset 33) :=
  ⟨⟨encBusy_inv (by decide), by unfold State.noReset; decide⟩, keyedRounds_inv.2, by unfold State.noReset; decide⟩

theorem witness_OtherCommandsTakeOneCycle :
    ((started 0x5 0 0).st = .start ∧ (nextInput (started 0x5 0 0)).rst = false ∧ (∃ t, step (started 0x5 0 0) = .next t) ∧
        decodeCmd (started 0x5 0 0).lCmd ≠ .ok .enc ∧ decodeCmd (started 0x5 0 0).lCmd ≠ .ok .dec) ∧
      ((started 0x2 0 0).st = .start ∧ (∃ t, step (started 0x2 0 0) = .next t) ∧ (started 0x2 0 0).keyvalid = false) ∧
      ((keyedStart 0x2 20480).st = .start ∧ (nextInput (keyedStart 0x2 20480)).rst = false ∧
        (∃ t, step (keyedStart 0x2 20480) = .next t) ∧ decodeCmd (keyedStart 0x2 20480).lCmd = .ok .enc ∧
        (keyedStart 0x2 20480).params.ceilBytes <
          ((keyedStart 0x2 20480).usageT.getD (keyedStart 0x2 20480).lKeyid.toNat 0).toNat + 8) :=
  ⟨⟨by decide, by decide, ⟨_, rfl⟩, by decide⟩, ⟨by decide, ⟨_, rfl⟩, by decide⟩, by decide, by decide, ⟨_, rfl⟩, by decide⟩

theorem witness_UnpadMessageByLastNonzeroByte :
    (∀ b ∈ ([0, 0] : List Byte), b = 0#8) ∧ (∀ b ∈ ([] : List Byte), b = 0#8) ∧
      (([0x41, 0x80, 0] : List Byte) = [0x41] ++ 0x80 :: List.replicate 1 0#8 ∧ (0x80 : Byte) ≠ 0#8) ∧
      (([0x41] : List Byte) = [] ++ 0x41 :: List.replicate 0 0#8 ∧ (0x41 : Byte) ≠ 0#8) := by decide

theorem witness_BlockCodecIsTheMessageCodec :
    (∀ j, j < ([0x41, 0x42] : List Byte).length % 8 → (0x4142FFFFFFFFFFFF : Block).extractLsb' (56 - 8 * j) 8 =
        (([0x41, 0x42] : List Byte).drop (8 * (([0x41, 0x42] : List Byte).length / 8))).getD j 0) ∧
      ∀ j, j < ([] : List Byte).length % 8 → (0xFF : Block).extractLsb' (56 - 8 * j) 8 = (([] : List Byte).drop 0).getD j 0 := by
  decide

theorem witness_WaitSeesEveryCommandEnd :
    (keyed 20480).Inv ∧ (keyed 20480).st = .idle ∧ decodeCmd 0x8 = .error .reservedOp := ⟨keyed_inv (by decide), by decide⟩

theorem witness_EncryptMessageIsEcbOfPad :
    testState.Inv ∧ testState.st = .idle ∧ ([1, 2, 3, 4, 5, 6, 7] : List Byte).length = 7 ∧
      (15 : Word).toNat < 2 ^ testState.params.keyIdBits ∧
      (testState.usageT.getD (15 : Word).toNat 0).toNat + (padMsg [0x61, 0x62, 0x63]).length ≤ testState.params.ceilBytes :=
  ⟨testState_inv, by decide⟩

theorem witness_EncryptMessageFailures :
    ((keyed 20480).Inv ∧ (keyed 20480).st = .idle) ∧ (0 < 16 ∧ 0 ≠ 7) ∧ (15 < 16 ∧ 15 ≠ 7) ∧
      ((5 : Word).toNat < 2 ^ (keyed 20480).params.keyIdBits ∧
        (keyed 20480).params.ceilBytes < ((keyed 20480).usageT.getD (5 : Word).toNat 0).toNat + (padMsg []).length) :=
  ⟨⟨keyed_inv (by decide), by decide⟩, by decide⟩

theorem witness_DecryptMessageIsUnpadOfEcb :
    ((keyed 8).st = .idle ∧ (keyed 8).keyvalid = true) ∧ (([1, 2] : List Byte).length % 8 ≠ 0 ∧ DecTail.strict = .strict) ∧
      (([1, 2] : List Byte).length % 8 = 0 ∨ DecTail.permissive = .permissive) ∧ ([] : List Byte).length % 8 = 0 ∧
      ([1, 2, 3, 4, 5, 6, 7, 8] : List Byte).length % 8 = 0 := by decide

theorem witness_MessageRoundTrip :
    testState.Inv ∧ testState.st = .idle ∧ ([0xFF, 0, 0, 0, 0, 0, 0] : List Byte).length = 7 ∧
      (0 : Word).toNat < 2 ^ testState.params.keyIdBits ∧
      (testState.usageT.getD (0 : Word).toNat 0).toNat + (padMsg [0x80, 0, 0, 0, 0, 0, 0, 0]).length ≤ testState.params.ceilBytes :=
  ⟨testState_inv, by decide⟩

end Sys2Proof.Machine
end

section
/-! PROOFS. Every step keeps the invariants (10_state.md R51): the pieces of Laws/Invariants put together over the cases of an engine
step, the three ways a cycle goes, and the reset. -/

namespace Sys2Proof.Machine

/-- The position of a last non-zero byte is one of the bytes looked at. -/
theorem lastNonzero_lt {b : Block} {p : Nat} : ∀ {n : Nat}, lastNonzero b n = some p → p < n
  | 0, h => by simp [lastNonzero] at h
  | n + 1, h => by
    unfold lastNonzero at h
    split at h
    · obtain rfl : n = p := by simpa using h
      exact Nat.lt_succ_self n
    · exact Nat.lt_succ_of_lt (lastNonzero_lt h)

/-- UNPAD keeps at most the eight bytes of its block (10_state.md R32). -/
theorem unpadblk_length_le (b : Block) : (unpadblk b).2 ≤ 8 := by
  unfold unpadblk
  split
  · exact Nat.zero_le 8
  · next p hp =>
    split
    · exact Nat.le_of_lt (lastNonzero_lt hp)
    · exact Nat.le_refl 8

theorem unpadblk_uplen_le (b : Block) : (BitVec.ofNat 32 (unpadblk b).2).toNat ≤ 8 := by
  rw [BitVec.toNat_ofNat]
  exact (Nat.mod_le _ _).trans (unpadblk_length_le b)

/-- A ROUNDS step of an ENC or DEC keeps the invariants: a middle round goes on with nothing charged, the last one finishes. -/
theorem State.Inv.roundsStep {s : State} (hi : s.Inv) (hst : s.st = .rounds) (rk : Word) (code : ResultCode) :
    (roundsStep rk code s).Inv := by
  have hkeeps := roundsStep_keeps rk code s
  have hbusy : s.st ≠ .idle := by simp [hst]
  by_cases hr : s.r.toNat < 31
  · rw [roundsStep_middle hr] at hkeeps ⊢
    exact hi.engineGoesOn hkeeps (hi.rounds_cmd hst) (hi.rounds_key hst) (hi.busy_not_done hbusy) rfl hi.usage_legal rfl
  · rw [roundsStep_last hr] at hkeeps ⊢
    exact hi.engineFinishes hkeeps rfl rfl hi.uplen_le

/-- An engine step of a busy machine keeps the invariants. -/
theorem State.Inv.engineCase {s t : State} (hi : s.Inv) (hbusy : s.st ≠ .idle) (hc : EngineCase s t) : t.Inv := by
  have hkeeps := hc.keeps
  have hdone := hi.busy_not_done hbusy
  cases hc with
  | encRound _ hst => exact hi.roundsStep hst _ _
  | decRound _ hst => exact hi.roundsStep hst _ _
  | encBegin hd _ hk hroom => exact hi.engineGoesOn hkeeps (.inl hd) hk hdone (by simp) (hi.charged hroom) rfl
  | decBegin hd _ hk => exact hi.engineGoesOn hkeeps (.inr hd) hk hdone rfl hi.usage_legal rfl
  | unpad => exact hi.engineFinishes hkeeps rfl rfl (unpadblk_uplen_le _)
  | _ => exact hi.engineFinishes hkeeps rfl rfl hi.uplen_le

/-- A cycle with reset asserted keeps the invariants; of the old state it needs the ROM's law alone. -/
theorem State.Inv.applyReset {s : State} (hi : s.Inv) (p : PortIn) : (applyReset p s).Inv :=
  (resetOf_inv hi.sbox_law s.params).sameEngine (by constructor <;> rfl) rfl (Nat.two_pow_pos _)
    (show (0 : Word).toNat < 2 by decide) id

/-- A step takes the host's port values and no more. -/
theorem State.Inv.takeInput {s : State} (hi : s.Inv) : (takeInput s).Inv :=
  hi.sameEngine (takeInput_sameEngine s) hi.keyHi_low hi.keyId_lt hi.cfg_lt id

/-- Every clock cycle keeps the invariants, whatever the host drives in it. -/
theorem State.Inv.clockCycle {s t : State} (hi : s.Inv) {p : PortIn} (h : clockCycle p s = .next t) : t.Inv := by
  rcases clockCycle_cases h with ⟨-, rfl⟩ | ⟨-, -, rfl⟩ | ⟨-, hbusy, hc⟩
  · exact hi.applyReset p
  · exact hi.afterHost p
  · have hbusy : (Machine.afterHost p s).st ≠ .idle := by rw [(afterHost_sameEngine hbusy p).st]; exact hbusy
    exact (hi.afterHost p).engineCase hbusy hc

/-- Settles O44: the cycle's part keeps the invariants, and taking the port values reaches none of them. -/
theorem stepKeepsTheInvariants : Obligations.StepKeepsTheInvariants :=
  fun _ _ hi h => hi.takeInput.clockCycle h

/-- Settles O43: the S-box contents obey the law, and every other register is 0. -/
theorem resetMeetsTheInvariants : Obligations.ResetMeetsTheInvariants :=
  resetOf_inv sbox_law Config.Params.default

end Sys2Proof.Machine
end

section
/-! PROOFS. What a step can change: the usage table (10_state.md R46, 44_usage.md R212 to R217) and the key (10_state.md R21, R37). -/

namespace Sys2Proof.Machine

/-- A step without reset, said once: the host's part alone, or an engine step of a state with the same engine. -/
theorem step_cases {s t : State} (hr : (nextInput s).rst = false) (h : step s = .next t) :
    (s.st = .idle ∧ t = afterHost (nextInput s) (takeInput s)) ∨
      (s.st ≠ .idle ∧ ∃ u : State, SameEngine s u ∧ EngineCase u t) := by
  by_cases hst : s.st = .idle
  · have hstep : step s = .next (afterHost (nextInput s) (takeInput s)) := clockCycle_idle (s := takeInput s) hr hst
    exact .inl ⟨hst, by simpa [h] using hstep⟩
  · obtain ⟨u, hu, -, -, -, hstep⟩ := step_busy hr hst
    exact .inr ⟨hst, u, hu, engineStep_cases (hstep ▸ h)⟩

/-- The host's part on an idle machine reaches neither the counters nor the key, a command accepted or not. -/
theorem afterHost_idle_keeps {s : State} (h : s.st = .idle) (p : PortIn) :
    (afterHost p s).usageT = s.usageT ∧ (afterHost p s).k = s.k ∧ (afterHost p s).keyvalid = s.keyvalid := by
  rcases afterHost_idle h p with ⟨-, -, -, ha⟩ | hs
  · rw [ha]; exact ⟨rfl, rfl, rfl⟩
  · exact ⟨hs.usageT, hs.k, hs.keyvalid⟩

/-- A ROUNDS step keeps the key. -/
theorem roundsStep_key (rk : Word) (code : ResultCode) (s : State) :
    (roundsStep rk code s).k = s.k ∧ (roundsStep rk code s).keyvalid = s.keyvalid := by
  by_cases h : s.r.toNat < 31
  · rw [roundsStep_middle h]; exact ⟨rfl, rfl⟩
  · rw [roundsStep_last h]; exact ⟨rfl, rfl⟩

/-- An engine step keeps `K` and KEYVALID, but for KEYLOAD, which finishes with KEYVALID telling whether the length was 7 and leaves
`K` at any other length (40_key_schedule.md R112, R113). -/
theorem EngineCase.key {s t : State} (h : EngineCase s t) :
    (t.k = s.k ∧ t.keyvalid = s.keyvalid) ∨
      (t.st = .idle ∧ ∃ klen, decodeCmd s.lCmd = .ok (.keyload klen) ∧ (t.k ≠ s.k → klen = 7) ∧
        t.keyvalid = decide (klen = 7)) := by
  cases h with
  | keyload hd => exact .inr ⟨rfl, 7, hd, fun _ => rfl, rfl⟩
  | keyloadLength klen hd h7 => exact .inr ⟨rfl, klen, hd, fun hk => absurd rfl hk, (decide_eq_false h7).symm⟩
  | encRound => exact .inl (roundsStep_key _ _ s)
  | decRound => exact .inl (roundsStep_key _ _ s)
  | _ => exact .inl ⟨rfl, rfl⟩

/-- Settles O41: the host's part charges nothing, and of the engine's steps only the START step of an ENC that passes its checks does. -/
theorem onlyEncStartCharges : Obligations.OnlyEncStartCharges := by
  intro s t hr h hne
  rcases step_cases hr h with ⟨hst, rfl⟩ | ⟨hbusy, u, hu, hc⟩
  · exact absurd (afterHost_idle_keeps (s := takeInput s) hst _).1 hne
  · rcases hc.usage with hkeep | hcharge
    · exact absurd (hkeep.trans hu.usageT) hne
    · simp only [usageAt, hu.lCmd, hu.st, hu.keyvalid, hu.usageT, hu.lKeyid, hu.params, Config.chargeBytes] at hcharge
      obtain ⟨henc, hstart, hkey, hrounds, hroom, htable⟩ := hcharge
      exact ⟨hstart, hbusy, henc, hkey, hroom, htable, hrounds⟩

/-- Settles O46: the host's part keeps the key, and of the engine's steps only that of a KEYLOAD changes it. -/
theorem keyChangesOnlyByKeyload : Obligations.KeyChangesOnlyByKeyload := by
  intro s t hr h hne
  rcases step_cases hr h with ⟨hst, rfl⟩ | ⟨hbusy, u, hu, hc⟩
  · obtain ⟨-, hk, hkv⟩ := afterHost_idle_keeps (s := takeInput s) hst (nextInput s)
    exact absurd hne (not_or.2 ⟨not_not.2 hk, not_not.2 hkv⟩)
  · have hkey := hc.key
    rw [hu.k, hu.keyvalid, hu.lCmd] at hkey
    rcases hkey with ⟨hk, hkv⟩ | ⟨hidle, hload⟩
    · exact absurd hne (not_or.2 ⟨not_not.2 hk, not_not.2 hkv⟩)
    · exact ⟨hbusy, hidle, hload⟩

end Sys2Proof.Machine
end

section
/-! PROOFS. Bus traffic does not reach a command in flight (10_state.md R25, 20_memory.md R74, 70_reset_and_hazards.md R288): an engine
step of two states with the same engine leaves the same engine. -/

namespace Sys2Proof.Machine

/-- The engine of `s` beside the host's side of `e`: its registers, the flags its writes reach, and the ports. -/
def State.withHostOf (s e : State) : State :=
  { s with
    keyLo := e.keyLo, keyHi := e.keyHi, dinHi := e.dinHi, dinLo := e.dinLo, rkey := e.rkey, keyId := e.keyId, cfg := e.cfg
    done := e.done, warn := e.warn, ovr := e.ovr, inputs := e.inputs, rdata := e.rdata }

theorem withHostOf_sameEngine (s e : State) : SameEngine s (s.withHostOf e) := by constructor <;> rfl

/-- Two states with the same engine differ in the host's side alone. -/
theorem SameEngine.eq_withHostOf {s t : State} (h : SameEngine s t) : t = s.withHostOf t := by
  obtain ⟨hk, hnHi, hnLo, hr, hst, hlCmd, hlKey, hlRkey, hlKeyid, husage, hdoutHi, hdoutLo, huplen, hkv, hresult, hsbox,
    hparams⟩ := h
  simp only [State.withHostOf, ← hk, ← hnHi, ← hnLo, ← hr, ← hst, ← hlCmd, ← hlKey, ← hlRkey, ← hlKeyid, ← husage,
    ← hdoutHi, ← hdoutLo, ← huplen, ← hkv, ← hresult, ← hsbox, ← hparams]

/-- Every case is an engine step: the converse of `engineStep_cases`. -/
theorem EngineCase.engineStep_eq {s t : State} (h : EngineCase s t) : engineStep s = .next t := by
  cases h with
  | illegal h => exact engineStep_illegal h
  | keyloadLength klen h h7 => rw [engineStep_ok h]; exact if_pos h7
  | noKey h hst hk =>
    rcases h with h | h
    · rw [engineStep_ok h, execEnc_start hst, encStart_noKey hk]
    · rw [engineStep_ok h, execDec_start hst, decStart_noKey hk]
  | exhausted h hst hk hc => rw [engineStep_ok h, execEnc_start hst, encStart_exhausted hk hc]
  | encBegin h hst hk hc => rw [engineStep_ok h, execEnc_start hst, encStart_begin hk hc]
  | decBegin h hst hk => rw [engineStep_ok h, execDec_start hst, decStart_begin hk]
  | encRound h hst => rw [engineStep_ok h, execEnc_rounds hst]
  | decRound h hst => rw [engineStep_ok h, execDec_rounds hst]
  | nop h => exact engineStep_ok h
  | keyload h => exact engineStep_ok h
  | pad _ h => exact engineStep_ok h
  | unpad h => exact engineStep_ok h
  | xformT h => exact engineStep_ok h
  | roundG h => exact engineStep_ok h

/-- A ROUNDS step reads nothing of the host's side. -/
theorem roundsStep_withHostOf (rk : Word) (code : ResultCode) (s e : State) :
    SameEngine (roundsStep rk code s) (roundsStep rk code (s.withHostOf e)) := by
  by_cases h : s.r.toNat < 31
  · rw [roundsStep_middle h, roundsStep_middle (s := s.withHostOf e) h]; constructor <;> rfl
  · rw [roundsStep_last h, roundsStep_last (s := s.withHostOf e) h]; constructor <;> rfl

/-- The case of an engine step is chosen, and its engine computed, without the host's side. -/
theorem EngineCase.withHostOf {s t : State} (h : EngineCase s t) (e : State) :
    ∃ u, EngineCase (s.withHostOf e) u ∧ SameEngine t u := by
  cases h with
  | illegal h => exact ⟨_, .illegal h, by constructor <;> rfl⟩
  | nop h => exact ⟨_, .nop h, by constructor <;> rfl⟩
  | keyload h => exact ⟨_, .keyload h, by constructor <;> rfl⟩
  | keyloadLength klen h h7 => exact ⟨_, .keyloadLength klen h h7, by constructor <;> rfl⟩
  | pad n h => exact ⟨_, .pad n h, by constructor <;> rfl⟩
  | unpad h => exact ⟨_, .unpad h, by constructor <;> rfl⟩
  | xformT h => exact ⟨_, .xformT h, by constructor <;> rfl⟩
  | roundG h => exact ⟨_, .roundG h, by constructor <;> rfl⟩
  | noKey h hst hk => exact ⟨_, .noKey h hst hk, by constructor <;> rfl⟩
  | exhausted h hst hk hc => exact ⟨_, .exhausted h hst hk hc, by constructor <;> rfl⟩
  | encBegin h hst hk hc => exact ⟨_, .encBegin h hst hk hc, by constructor <;> rfl⟩
  | decBegin h hst hk => exact ⟨_, .decBegin h hst hk, by constructor <;> rfl⟩
  | encRound h hst => exact ⟨_, .encRound h hst, roundsStep_withHostOf _ _ s e⟩
  | decRound h hst => exact ⟨_, .decRound h hst, roundsStep_withHostOf _ _ s e⟩

/-- Engine steps of states with the same engine leave the same engine. -/
theorem engineStep_sameEngine {s s' t t' : State} (h : SameEngine s s') (ht : engineStep s = .next t)
    (ht' : engineStep s' = .next t') : SameEngine t t' := by
  obtain ⟨u, hu, htu⟩ := (engineStep_cases ht).withHostOf s'
  rw [← h.eq_withHostOf] at hu
  obtain rfl : u = t' := by simpa [hu.engineStep_eq] using ht'
  exact htu

/-- Settles O48: both transactions leave the busy engine as it was, and the engine's step reads nothing else. -/
theorem busTrafficDoesNotReachACommand : Obligations.BusTrafficDoesNotReachACommand := by
  intro s p q t u hbusy hp hq ht hu
  rw [clockCycle_busy hp hbusy] at ht
  rw [clockCycle_busy hq hbusy] at hu
  have hsame := (afterHost_sameEngine hbusy q).symm.trans (afterHost_sameEngine hbusy p)
  have h := engineStep_sameEngine hsame hu ht
  exact ⟨h.k, h.nHi, h.nLo, h.r, h.st, h.lCmd, h.lKey, h.lRkey, h.lKeyid, h.usageT, h.doutHi, h.doutLo, h.uplen, h.result,
    h.keyvalid⟩

end Sys2Proof.Machine
end

section
/-! PROOFS. The register window as the host sees it: the fields of STATUS (10_state.md R34), the registers that read back (R26 to R30,
R42) and the reset table (R50). -/

namespace Sys2Proof.Machine

/-- Bit `i` of STATUS (10_state.md R34, 45_bus_control.md R232). -/
def statusBit (s : State) (i : Nat) : Bool :=
  decide (i = 17) && s.ovr || decide (i = 16) && s.warn || decide (8 ≤ i) && s.r.getLsbD (i - 8) ||
    decide (4 ≤ i) && s.result.code.getLsbD (i - 4) || decide (i = 2) && s.keyvalid || decide (i = 1) && s.done ||
    decide (i = 0) && s.busy

theorem status_getLsbD (s : State) {i : Nat} (hi : i < 32) : (readWord s 1).getLsbD i = statusBit s i := by
  show (statusWord s).getLsbD i = _
  unfold statusWord statusBit
  interval_cases i <;> simp [flagBit_getLsbD, BitVec.getLsbD_setWidth, -BitVec.getLsbD_eq_getElem]

/-- A field of STATUS, by its bits. -/
theorem status_field {s : State} {start len : Nat} {x : BitVec len} (hfit : start + len ≤ 32)
    (hbits : ∀ i, i < len → statusBit s (start + i) = x.getLsbD i) : (readWord s 1).extractLsb' start len = x := by
  apply BitVec.eq_of_getLsbD_eq
  intro i hi
  rw [BitVec.getLsbD_extractLsb', status_getLsbD s (by omega), hbits i hi]
  simp [hi]

/-- STATUS.ROUND (10_state.md R39). -/
theorem status_round (s : State) : (readWord s 1).extractLsb' 8 5 = s.r :=
  status_field (by decide) fun i hi => by interval_cases i <;> simp [statusBit, -BitVec.getLsbD_eq_getElem]

/-- The reserved bits between ROUND and WARN, and those above OVR (10_state.md R34). -/
theorem status_reserved (s : State) :
    (readWord s 1).extractLsb' 13 3 = 0 ∧ (readWord s 1).extractLsb' 18 14 = 0 :=
  ⟨status_field (by decide) fun i hi => by interval_cases i <;> simp [statusBit, -BitVec.getLsbD_eq_getElem],
    status_field (by decide) fun i hi => by interval_cases i <;> simp [statusBit, -BitVec.getLsbD_eq_getElem]⟩

/-- The flags of STATUS beside BUSY, and the reserved bit 3 (10_state.md R34). -/
theorem status_flags (s : State) :
    (readWord s 1).getLsbD 1 = s.done ∧ (readWord s 1).getLsbD 2 = s.keyvalid ∧ (readWord s 1).getLsbD 3 = false ∧
      (readWord s 1).getLsbD 16 = s.warn ∧ (readWord s 1).getLsbD 17 = s.ovr := by
  refine ⟨?_, ?_, ?_, ?_, ?_⟩ <;>
  · rw [status_getLsbD s (by decide)]
    simp [statusBit, -BitVec.getLsbD_eq_getElem]

/-- Settles O14: BUSY and RESULT by the polling host's lemma, every other field by its bits. -/
theorem statusFields : Obligations.StatusFields := by
  intro s
  obtain ⟨hbusy, hresult⟩ := status_busy_result s
  obtain ⟨hdone, hkeyvalid, hbit3, hwarn, hovr⟩ := status_flags s
  obtain ⟨hlow, hhigh⟩ := status_reserved s
  have hcode : ((readWord s 1).extractLsb' 4 4).toNat = s.result.code.toNat := congrArg BitVec.toNat hresult
  refine ⟨hbusy, hdone, hkeyvalid, hbit3, hcode.trans ?_, status_round s, hlow, hwarn, hovr, hhigh⟩
  cases s.result <;> rfl

/-- The writable bits of KEY_HI as a mask (10_state.md R27). -/
theorem keyHiField_eq_and (v : Word) : keyHiField v = v &&& 0xFFFFFF00#32 := by
  apply BitVec.eq_of_getLsbD_eq
  intro i hi
  rw [keyHiField, BitVec.getLsbD_append]
  interval_cases i <;> simp [-BitVec.getLsbD_eq_getElem]

/-- The writable bit of CFG as a mask (10_state.md R42). -/
theorem cfgField_eq_and (v : Word) : cfgField v = v &&& 1#32 := by
  apply BitVec.eq_of_getLsbD_eq
  intro i hi
  rw [cfgField, BitVec.getLsbD_setWidth, BitVec.getLsbD_extractLsb']
  interval_cases i <;> simp [-BitVec.getLsbD_eq_getElem]

/-- Settles O19: KEY_HI and CFG keep the bits of a mask, KEY_ID its field, the other registers the whole word. -/
theorem writableRegistersReadBack : Obligations.WritableRegistersReadBack := by
  intro s a v ha
  refine ⟨writeWord a v s, rfl, ?_⟩
  have ha : a = 2 ∨ a = 3 ∨ a = 4 ∨ a = 5 ∨ a = 8 ∨ a = 9 ∨ a = 12 := by revert a; decide
  rcases ha with rfl | rfl | rfl | rfl | rfl | rfl | rfl
  · rfl
  · exact keyHiField_eq_and v
  · rfl
  · rfl
  · rfl
  · rfl
  · exact cfgField_eq_and v

/-- STATUS of an idle machine with every flag clear, round 0 and result OK. -/
theorem status_eq_zero {s : State} (hst : s.st = .idle) (hr : s.r = 0) (hresult : s.result = .ok) (hdone : s.done = false)
    (hkeyvalid : s.keyvalid = false) (hwarn : s.warn = false) (hovr : s.ovr = false) : readWord s 1 = 0 := by
  show statusWord s = 0
  simp [statusWord, State.busy, ResultCode.code, flagBit, hst, hr, hresult, hdone, hkeyvalid, hwarn, hovr]

/-- A step with reset asserted. -/
theorem step_reset {s : State} {p : PortIn} {rest : List PortIn} (h : s.inputs = p :: rest) (hr : p.rst = true) :
    step s = .next (applyReset p { s with inputs := rest }) :=
  (step_cons h).trans (clockCycle_reset hr _)

/-- Settles O10: the reset state and what a reset cycle leaves are `State.resetOf` but for the ports, and that state is the table. -/
theorem resetLeavesTheResetTable : Obligations.ResetLeavesTheResetTable := by
  refine ⟨fun t ht => ?_, fun s t p rest hin hr h => ?_⟩
  · have hreset : ∃ sb ps inputs rdata, t = { State.resetOf sb ps with inputs := inputs, rdata := rdata } := by
      rcases ht with rfl | ⟨s, p, rest, hin, hr, h⟩
      · exact ⟨Config.sbox, Config.Params.default, [], none, rfl⟩
      · rw [step_reset hin hr] at h
        exact ⟨s.sbox, s.params, rest, _, (Host.Outcome.next.inj h).symm⟩
    obtain ⟨sb, ps, inputs, rdata, rfl⟩ := hreset
    exact ⟨fun i => Vector.getElem_replicate i.isLt, rfl, rfl, rfl, rfl, rfl, rfl, rfl, rfl,
      fun u hu => List.eq_of_mem_replicate hu, List.length_replicate, rfl, rfl, rfl, rfl, rfl, rfl, rfl, rfl, rfl, rfl,
      status_eq_zero rfl rfl rfl rfl rfl rfl rfl, rfl, Bool.and_false _⟩
  · rw [step_reset hin hr] at h
    obtain rfl := Host.Outcome.next.inj h
    rfl

end Sys2Proof.Machine
end

section
/-! PROOFS. One cycle without reset (20_memory.md R72): the transaction on the ports, then the command in flight; and the cycle
of a silent host (log 1) and of a placed instruction (log 4). -/

namespace Sys2Proof.Machine

/-- With `sel` high the host's part of the cycle is the instruction on the ports (30_encoding.md R100). -/
theorem exec_instr_eq {p : PortIn} (hsel : p.sel = true) (s : State) :
    exec p.instr (clearRdata s) = .next (afterHost p s) := by
  have h := hostPhase_eq p s
  rwa [hostPhase, if_pos hsel] at h

/-- With `sel` low the host's part of the cycle clears the read port and does nothing else. -/
theorem afterHost_unselected {p : PortIn} (hsel : p.sel = false) (s : State) : afterHost p s = clearRdata s := by
  simp [afterHost, hsel]

/-- An idle machine's step without reset is the host's part of the cycle. -/
theorem step_idle {s : State} {p : PortIn} {rest : List PortIn} (hin : s.inputs = p :: rest) (hrst : p.rst = false)
    (hst : s.st = .idle) : step s = .next (afterHost p { s with inputs := rest }) :=
  (step_cons hin).trans (clockCycle_idle hrst hst)

/-- With a transaction on the ports, that is the transaction's instruction. -/
theorem step_idle_selected {s : State} {p : PortIn} {rest : List PortIn} (hin : s.inputs = p :: rest)
    (hrst : p.rst = false) (hsel : p.sel = true) (hst : s.st = .idle) :
    step s = exec p.instr { s with inputs := rest, rdata := none } :=
  (step_idle hin hrst hst).trans (exec_instr_eq hsel { s with inputs := rest }).symm

/-- A busy machine's step without reset is the engine's step in the state the host's part left. -/
theorem step_busy_eq_engineStep {s : State} {p : PortIn} {rest : List PortIn} (hin : s.inputs = p :: rest)
    (hrst : p.rst = false) (hbusy : s.st ≠ .idle) : step s = engineStep (afterHost p { s with inputs := rest }) :=
  (step_cons hin).trans (clockCycle_busy hrst hbusy)

/-- The host's part leaves the word of a command in flight. -/
theorem afterHost_lCmd {s : State} (hbusy : s.st ≠ .idle) (p : PortIn) (rest : List PortIn) :
    (afterHost p { s with inputs := rest }).lCmd = s.lCmd :=
  (afterHost_sameEngine (s := { s with inputs := rest }) hbusy p).lCmd

/-- A command in flight runs in the state the host's part left. -/
theorem step_busy_ok {s : State} {p : PortIn} {rest : List PortIn} {i : Instr} (hin : s.inputs = p :: rest)
    (hrst : p.rst = false) (hbusy : s.st ≠ .idle) (hd : decodeCmd s.lCmd = .ok i) :
    step s = exec i (afterHost p { s with inputs := rest }) := by
  rw [step_busy_eq_engineStep hin hrst hbusy, engineStep_ok (by rw [afterHost_lCmd hbusy]; exact hd)]

/-- An illegal word in flight ends E_ILLEGAL and changes nothing else (30_encoding.md R93). -/
theorem step_busy_illegal {s : State} {p : PortIn} {rest : List PortIn} (hin : s.inputs = p :: rest)
    (hrst : p.rst = false) (hbusy : s.st ≠ .idle) (hd : ∀ i, decodeCmd s.lCmd ≠ .ok i) :
    step s = .next { afterHost p { s with inputs := rest } with result := .eIllegal, done := true, st := .idle } := by
  rw [step_busy_eq_engineStep hin hrst hbusy, engineStep_illegal (by rw [afterHost_lCmd hbusy]; exact hd)]
  simp [finish]

/-- Settles O6: the host's part is `exec` of the ports' instruction or nothing, and the engine's part reads the L_CMD it left. -/
theorem stepRunsTheDecodedInstructions : Obligations.StepRunsTheDecodedInstructions := by
  intro s p rest hin hrst
  refine ⟨fun hsel hst => ?_, fun hsel hst => ?_, fun hsel hbusy i hd => ?_, fun hsel hbusy i hd => ?_,
    fun hsel hbusy hd => ?_, fun hsel hbusy hd => ?_⟩
  · rw [step_idle hin hrst hst, afterHost_unselected hsel]; rfl
  · exact step_idle_selected hin hrst hsel hst
  · rw [step_busy_ok hin hrst hbusy hd, afterHost_unselected hsel]; rfl
  · exact ⟨_, exec_instr_eq hsel { s with inputs := rest }, step_busy_ok hin hrst hbusy hd⟩
  · rw [step_busy_illegal hin hrst hbusy hd, afterHost_unselected hsel]; rfl
  · exact ⟨_, exec_instr_eq hsel { s with inputs := rest }, step_busy_illegal hin hrst hbusy hd⟩

/-- Settles O7: both hosts drive `PortIn.idle` next and nothing after it. -/
theorem hostWithNothingToDoIsAnIdleCycle : Obligations.HostWithNothingToDoIsAnIdleCycle := by
  intro s hin
  have hnext : nextInput s = nextInput { s with inputs := [PortIn.idle] } := by simp [nextInput, hin]
  have htake : takeInput s = takeInput { s with inputs := [PortIn.idle] } := by simp [takeInput, hin]
  rw [step, step, hnext, htake]

/-- An opcode-table row longer than 8 bits is a command word. -/
theorem decodeCmd_of_decodeTableWord {nbits w : Nat} {i : Instr} (h : decodeTableWord nbits w = some i)
    (hlong : 8 < nbits) : decodeCmd (BitVec.ofNat 32 w) = .ok i := by
  unfold decodeTableWord at h
  rw [if_neg (Nat.not_le.2 hlong)] at h
  split at h
  · split at h
    · next j hj => rw [hj, Option.some.inj h]
    · cases h
  · cases h

/-- A row of at most 8 bits is a bus transaction with zero data. -/
theorem decodeBus_of_decodeTableWord {nbits w : Nat} {i : Instr} (h : decodeTableWord nbits w = some i)
    (hshort : nbits ≤ 8) : decodeBus (BitVec.ofNat 7 w) 0 = i := by
  unfold decodeTableWord at h
  rw [if_pos hshort] at h
  split at h
  · exact Option.some.inj h
  · cases h

/-- A bus pattern is its `we` bit and its word index. -/
theorem busPattern_fields (weAddr : BitVec 7) : busPattern (weAddr.getLsbD 6) (weAddr.extractLsb' 0 6) = weAddr := by
  revert weAddr; decide

/-- The step after `placeCommand` runs the placed command. -/
theorem step_placeCommand {v : Word} {i : Instr} (hd : decodeCmd v = .ok i) (s : State) :
    step (placeCommand v s) = exec i { acceptCmd v s with inputs := s.inputs, rdata := none } := by
  have hbusy : (placeCommand v s).st ≠ .idle := by simp [placeCommand]
  exact step_busy_ok (p := PortIn.idle) (rest := s.inputs) rfl rfl hbusy hd

/-- The step of an idle machine after `placeTransaction` runs the placed transaction. -/
theorem step_placeTransaction {s : State} (hst : s.st = .idle) (weAddr : BitVec 7) :
    step (placeTransaction weAddr s) = exec (decodeBus weAddr 0) { s with rdata := none } := by
  rw [step_idle_selected (s := placeTransaction weAddr s) rfl rfl rfl hst, PortIn.instr, busPattern_fields]
  rfl

/-- Settles O8: a long row is an accepted command, a short one a transaction on the ports of an idle machine. -/
theorem placedInstructionRunsNext : Obligations.PlacedInstructionRunsNext := by
  intro s nbits w i h
  refine ⟨fun hlong => ?_, fun hshort hst => ?_⟩
  · rw [State.withFetchWord, if_neg (Nat.not_le.2 hlong)]
    exact step_placeCommand (decodeCmd_of_decodeTableWord h hlong) s
  · rw [State.withFetchWord, if_pos hshort, ← decodeBus_of_decodeTableWord h hshort]
    exact step_placeTransaction hst _

end Sys2Proof.Machine
end

section
/-! PROOFS. Reads of the register window: the reserved bits (20_memory.md R65), and what a write to one word leaves of the others
(R66). -/

namespace Sys2Proof.Machine

/-- A length of at most 8 has no bit above the lowest four. -/
theorem extract_high_eq_zero {x : Word} (h : x.toNat ≤ 8) : x.extractLsb' 4 28 = 0 := by
  apply BitVec.eq_of_toNat_eq
  rw [BitVec.extractLsb'_toNat, Nat.shiftRight_eq_div_pow, Nat.div_eq_of_lt (by omega)]
  rfl

/-- Settles O17: each register by its invariant; a length of at most 8 fits UPLEN's four bits. -/
theorem reservedBitsReadZero : Obligations.ReservedBitsReadZero :=
  fun _ hi => ⟨hi.keyHi_low, hi.keyId_lt, hi.cfg_lt, extract_high_eq_zero hi.uplen_le, hi.uplen_le⟩

/-- The register map has each register at its own word index alone. -/
theorem eq_addr_of_regAt {a : BitVec 6} {reg : Reg} (h : regAt a = some reg) : a = reg.addr := by
  have hmap : ∀ a : BitVec 6, ∀ r ∈ regAt a, a = r.addr := by decide
  exact hmap a reg h

/-- A CMD write is seen in STATUS alone, accepted or dropped. -/
theorem readReg_cmdWrite (v : Word) (s : State) {q : Reg} (hq : q ≠ .status) : readReg (cmdWrite v s) q = readReg s q := by
  cases q with
  | status => exact absurd rfl hq
  | _ =>
    by_cases hst : s.st = .idle
    · rw [cmdWrite_idle hst]; rfl
    · rw [cmdWrite_busy hst]; rfl

/-- A write to one register leaves the reading of every other one, but for STATUS after CMD and USAGE after KEY_ID. -/
theorem readReg_writeReg_of_ne (v : Word) (s : State) {reg q : Reg} (hne : q ≠ reg) (hcmd : ¬(reg = .cmd ∧ q = .status))
    (hid : ¬(reg = .keyId ∧ q = .usage)) : readReg (writeReg v s reg) q = readReg s q := by
  cases reg with
  | cmd => exact readReg_cmdWrite v s fun hq => hcmd ⟨rfl, hq⟩
  | keyId =>
    cases q with
    | keyId => exact absurd rfl hne
    | usage => exact absurd ⟨rfl, rfl⟩ hid
    | _ => rfl
  | doutHi | doutLo | usage | uplen | id | kx => rfl
  | status | keyLo | keyHi | dinHi | dinLo | rkey | cfg =>
    -- `q` is the written register, against `hne`, or its reading names no written field.
    cases q <;> trivial

/-- Settles O18: two distinct words are two distinct registers, or one of them is reserved and reads 0 or takes no write. -/
theorem buswrLeavesOtherWords : Obligations.BuswrLeavesOtherWords := by
  intro s t a b v ht hne hcmd hid
  obtain rfl : writeWord a v s = t := Host.Outcome.next.inj ht
  unfold writeWord readWord
  cases ha : regAt a with
  | none => rfl
  | some reg =>
    cases hb : regAt b with
    | none => rfl
    | some q =>
      have ha := eq_addr_of_regAt ha
      have hb := eq_addr_of_regAt hb
      refine readReg_writeReg_of_ne v s ?_ ?_ ?_
      · rintro rfl
        exact hne (hb.trans ha.symm)
      · rintro ⟨rfl, rfl⟩
        exact hcmd ⟨ha, hb⟩
      · rintro ⟨rfl, rfl⟩
        exact hid ⟨ha, hb⟩

end Sys2Proof.Machine
end

section
/-! PROOFS. The encoding of the commands (30_encoding.md R90 to R99): decoding and encoding undo each other, which words are illegal
and how they end, and the spec's example words. -/

namespace Sys2Proof.Machine

/-- Settles O1: the per-instruction round trips put together. -/
theorem decodeInvertsEncode : Obligations.DecodeInvertsEncode := by
  intro i
  cases i with
  | nop => exact Laws.RoundTrip.nop
  | keyload klen => exact Laws.RoundTrip.keyload klen
  | enc => exact Laws.RoundTrip.enc
  | dec => exact Laws.RoundTrip.dec
  | pad padn => exact Laws.RoundTrip.pad padn
  | unpad => exact Laws.RoundTrip.unpad
  | xformT => exact Laws.RoundTrip.xformT
  | roundG => exact Laws.RoundTrip.roundG
  | buswr addr wdata => exact Laws.RoundTrip.buswr addr wdata
  | busrd addr => exact Laws.RoundTrip.busrd addr

/-- A command word is its four fields (R91). -/
theorem cmd_fields (c : Word) : cmdRsv c ++ cmdPadn c ++ cmdKlen c ++ cmdOp c = c := by
  have hrsvPadn : cmdRsv c ++ cmdPadn c = c.extractLsb' 8 24 := extract_join c
  have hklen : c.extractLsb' 8 24 ++ cmdKlen c = c.extractLsb' 4 28 := extract_join c
  have hop : c.extractLsb' 4 28 ++ cmdOp c = c.extractLsb' 0 32 := extract_join c
  rw [hrsvPadn, hklen, hop, extract_self]

/-- A row of the opcode map, with the fields it does not use zero, is well formed and encodes as those fields (R92). -/
theorem encode_of_opcodeMap {op klen : BitVec 4} {padn : BitVec 3} {i : Instr} (h : opcodeMap op klen padn = some i)
    (hklen : klen = 0 ∨ op = 0x1) (hpadn : padn = 0 ∨ op = 0x4) :
    i.wf = true ∧ encode i = .cmd ((0 : BitVec 21) ++ padn ++ klen ++ op) := by
  have hop : ∀ n, op.toNat = n → BitVec.ofNat 4 n = op := by
    rintro _ rfl
    simp
  unfold opcodeMap at h
  split at h <;> cases h
  case h_2 hnum => -- KEYLOAD
    obtain rfl := hop _ hnum
    obtain rfl : padn = 0 := by simpa using hpadn
    exact ⟨decide_eq_true klen.isLt, by simp [encode, cmdWord]⟩
  case h_5 hnum => -- PAD
    obtain rfl := hop _ hnum
    obtain rfl : klen = 0 := by simpa using hklen
    exact ⟨decide_eq_true padn.isLt, by simp [encode, cmdWord]⟩
  all_goals -- the commands without an operand
    next hnum =>
    obtain rfl := hop _ hnum
    obtain rfl : klen = 0 := by simpa using hklen
    obtain rfl : padn = 0 := by simpa using hpadn
    exact ⟨rfl, rfl⟩

/-- Settles O2: the fields of the word are those its command encodes to. -/
theorem legalCommandWordHasOneMeaning : Obligations.LegalCommandWordHasOneMeaning := by
  intro c i h
  obtain ⟨hmap, hrsv, hklen, hpadn⟩ := (decodeCmd_ok_iff c i).1 h
  obtain ⟨hwf, henc⟩ := encode_of_opcodeMap hmap hklen hpadn
  refine ⟨hwf, opcodeMap_isCommand hmap, ?_⟩
  rw [henc, ← hrsv, cmd_fields]

/-- A word is legal exactly when its opcode is below 8 and no field is set that its command does not use (R92, R93). -/
theorem exists_decodeCmd_ok_iff (c : Word) :
    (∃ i, decodeCmd c = .ok i) ↔
      (cmdOp c).toNat < 8 ∧ cmdRsv c = 0 ∧ (cmdKlen c = 0 ∨ cmdOp c = 0x1) ∧ (cmdPadn c = 0 ∨ cmdOp c = 0x4) := by
  have hop : (∃ i, opcodeMap (cmdOp c) (cmdKlen c) (cmdPadn c) = some i) ↔ (cmdOp c).toNat < 8 := by
    rw [← Option.isSome_iff_exists, opcodeMap_isSome, decide_eq_true_iff]
  simp only [decodeCmd_ok_iff, exists_and_right, hop]

/-- The four lines of R93. -/
theorem illegal_iff (c : Word) :
    (∀ i, decodeCmd c ≠ .ok i) ↔
      8 ≤ (cmdOp c).toNat ∨ cmdRsv c ≠ 0 ∨ (cmdKlen c ≠ 0 ∧ cmdOp c ≠ 0x1) ∨ (cmdPadn c ≠ 0 ∧ cmdOp c ≠ 0x4) := by
  rw [← not_exists, exists_decodeCmd_ok_iff]
  simp only [not_and_or, not_or, Nat.not_lt, ne_eq]

/-- Settles O3: the lines of R93 by `illegal_iff`, the CMD write by the engine's state, the START step by `engineStep_illegal`. -/
theorem illegalWordsAndTheirEnd : Obligations.IllegalWordsAndTheirEnd := by
  intro c
  refine ⟨illegal_iff c, fun hillegal s => ⟨fun hidle => ?_, fun _ hcmd => ?_, fun hbusy => ?_⟩⟩
  · exact ⟨acceptCmd c s, congrArg _ (cmdWrite_idle hidle c), rfl, rfl⟩
  · subst hcmd
    rw [engineStep_illegal hillegal]
    simp [finish]
  · exact congrArg _ (cmdWrite_busy hbusy c)

/-- A KEYLOAD of another length than 7 finishes E_KEYLEN (R113). -/
theorem execKeyload_of_ne {klen : Nat} (h : klen ≠ 7) (s : State) :
    execKeyload klen s = .next (finish .eKeylen { s with keyvalid := false }) :=
  if_pos h

/-- Settles O4: the words of R99 by evaluation; neither 8 nor 0 is the key length. -/
theorem exampleWordsDecode : Obligations.ExampleWordsDecode := by
  refine ⟨rfl, rfl, rfl, rfl, rfl, rfl, rfl, rfl, rfl, rfl, rfl, rfl, by decide, fun s klen hklen => ?_⟩
  have h7 : klen ≠ 7 := by rintro rfl; simp at hklen
  exact ⟨_, execKeyload_of_ne h7 s, rfl⟩

end Sys2Proof.Machine
end

section
/-! PROOFS. The bus transactions (30_encoding.md R100) as the host sees them: byte addresses in the window (20_memory.md R63, R68) and
the host's statements (30_encoding.md R97). -/

namespace Sys2Proof.Machine

/-- The multiples of four below 0x100 are the window's word addresses. -/
theorem wordIndex_of_aligned (base : Nat) {a : Nat} (halign : a % 4 = 0) (hlt : a < 0x100) :
    wordIndex base (base + a) = some (BitVec.ofNat 6 (a / 4)) := by
  rw [wordIndex, Nat.add_sub_cancel_left, if_pos ⟨Nat.le_add_right base a, hlt, halign⟩]

/-- No other offset has a word index (log 11). -/
theorem wordIndex_eq_none (base : Nat) {a : Nat} (h : a % 4 ≠ 0 ∨ 0x100 ≤ a) : wordIndex base (base + a) = none := by
  rw [wordIndex, Nat.add_sub_cancel_left, if_neg (by omega)]

/-- The byte offset of a register leads back to its word index. -/
theorem wordIndex_off (base : Nat) (reg : Reg) : wordIndex base (base + reg.off) = some reg.addr := by
  have hlt : reg.addr.toNat < 64 := reg.addr.isLt
  rw [Reg.off, wordIndex_of_aligned base (Nat.mul_mod_right 4 _) (by omega),
    Nat.mul_div_cancel_left _ (by decide), BitVec.ofNat_toNat, BitVec.setWidth_eq]

/-- A statement is the transaction its cycle has on the ports (30_encoding.md R97, R100). -/
theorem access_eq_instr (base : Nat) (c : HostStmt) : c.access base = some c.port.instr := by
  cases c with
  | wr reg imm =>
    rw [HostStmt.access, memWrite, wordIndex_off, HostStmt.port, PortIn.instr_eq]
    rfl
  | rd reg =>
    rw [HostStmt.access, memRead, wordIndex_off, HostStmt.port, PortIn.instr_eq]
    rfl

/-- The cycle of a statement on an idle machine is its transaction. -/
theorem exec_stmt_idle {s : State} (hst : s.st = .idle) (c : HostStmt) :
    exec c.port.instr (clearRdata s) = .next (afterCycle c.port s) := by
  have hsel : c.port.sel = true := by cases c <;> rfl
  have hrst : c.port.rst = false := by cases c <;> rfl
  rw [exec_instr_eq hsel, ← clockCycle_idle hrst hst, clockCycle_eq_next]

/-- Settles O5: the ports by the decoder's two patterns, the addresses by their word index, a host statement by its register's. -/
theorem busTransactionsAreDecoded : Obligations.BusTransactionsAreDecoded := by
  refine ⟨PortIn.instr_eq, fun addr v => ⟨decodeBus_write addr v, decodeBus_read addr v⟩, fun base a v halign hlt => ?_,
    fun base a v h => ?_, fun base c s => ⟨access_eq_instr base c, fun hst => exec_stmt_idle hst c⟩⟩
  · rw [memWrite, memRead, wordIndex_of_aligned base halign hlt]
    exact ⟨rfl, rfl⟩
  · rw [memWrite, memRead, wordIndex_eq_none base h]
    exact ⟨rfl, rfl⟩

end Sys2Proof.Machine
end

section
/-! PROOFS. A wait always ends (30_encoding.md R98, 70_reset_and_hazards.md R293): the polls of a command that ends in its START step,
and those through the rounds of an ENC or DEC. -/

namespace Sys2Proof.Machine

/-- Within `n` polls a wait from `u` ends, on a machine `b` that meets the invariants, is idle and has DONE set. -/
def WaitEnds (n : Nat) (u : State) : Prop :=
  ∃ b : State, hostWait n u = some (readWord b 1, { b with rdata := some (readWord b 1) }) ∧ b.Inv ∧ b.st = .idle ∧
    b.done = true

/-- The read port's value is in no invariant. -/
theorem State.Inv.withRdata {s : State} (hi : s.Inv) (w : Option Word) : State.Inv { s with rdata := w } :=
  hi.sameEngine (by constructor <;> rfl) hi.keyHi_low hi.keyId_lt hi.cfg_lt id

theorem waitEnds_idle {s : State} (hi : s.Inv) (hst : s.st = .idle) (hdone : s.done = true) (n : Nat) :
    WaitEnds (n + 1) s :=
  ⟨s, hostWait_idle hst n, hi, hst, hdone⟩

/-- A poll of a busy machine costs one poll more than what its engine's step leaves. -/
theorem waitEnds_busy {s t : State} (hbusy : s.st ≠ .idle)
    (ht : engineStep { s with rdata := some (readWord s 1) } = .next t) {n : Nat} (h : WaitEnds n t) :
    WaitEnds (n + 1) s := by
  rw [WaitEnds, hostWait_busy hbusy ht]
  exact h

/-- Under the invariants the engine's step in ROUNDS is a ROUNDS step (10_state.md R51), and it keeps them. -/
theorem engineStep_rounds {s : State} (hi : s.Inv) (hst : s.st = .rounds) :
    ∃ rk code, engineStep s = .next (roundsStep rk code s) ∧ (roundsStep rk code s).Inv := by
  rcases hi.rounds_cmd hst with hd | hd
  · exact ⟨_, _, (engineStep_ok hd).trans (execEnc_rounds hst), hi.roundsStep hst _ _⟩
  · exact ⟨_, _, (engineStep_ok hd).trans (execDec_rounds hst), hi.roundsStep hst _ _⟩

/-- From `m` rounds before the last one, a wait ends within `m + 2` polls. -/
theorem waitEnds_rounds (m : Nat) {s : State} (hi : s.Inv) (hst : s.st = .rounds) (hr : s.r.toNat + m = 31) :
    WaitEnds (m + 2) s := by
  induction m generalizing s with
  | zero =>
    obtain ⟨rk, code, ht, hinv⟩ := engineStep_rounds (hi.withRdata (some (readWord s 1))) hst
    rw [roundsStep_last (by simp; omega)] at ht hinv
    exact waitEnds_busy (by simp [hst]) ht (waitEnds_idle hinv rfl rfl 0)
  | succ m ih =>
    obtain ⟨rk, code, ht, hinv⟩ := engineStep_rounds (hi.withRdata (some (readWord s 1))) hst
    rw [roundsStep_middle (by simp; omega)] at ht hinv
    refine waitEnds_busy (by simp [hst]) ht (ih hinv hst ?_)
    show (s.r + 1).toNat + m = 31
    bv_omega

/-- A START step finishes its command or begins the rounds at round 0 (42_feistel.md R164). -/
theorem EngineCase.start {s t : State} (h : EngineCase s t) (hst : s.st = .start) :
    (t.st = .idle ∧ t.done = true) ∨ (t.st = .rounds ∧ t.r = 0) := by
  cases h with
  | encRound _ hrounds => simp [hst] at hrounds
  | decRound _ hrounds => simp [hst] at hrounds
  | encBegin => exact .inr ⟨rfl, rfl⟩
  | decBegin => exact .inr ⟨rfl, rfl⟩
  | _ => exact .inl ⟨rfl, rfl⟩

/-- A wait for an accepted command ends within the host's polls (log 12). -/
theorem waitEnds_start {s : State} (hi : s.Inv) (hst : s.st = .start) : WaitEnds pollLimit s := by
  have hbusy : s.st ≠ .idle := by simp [hst]
  obtain ⟨t, ht, hc⟩ := engineStep_case { s with rdata := some (readWord s 1) }
  have hinv := (hi.withRdata (some (readWord s 1))).engineCase hbusy hc
  refine waitEnds_busy (n := 33) hbusy ht ?_
  rcases hc.start hst with ⟨hidle, hdone⟩ | ⟨hrounds, hr⟩
  · exact waitEnds_idle hinv hidle hdone 32
  · exact waitEnds_rounds 31 hinv hrounds (by simp [hr])

/-- A command waited for ends in DONE on an idle machine; a word that is no command ends E_ILLEGAL (30_encoding.md R93). -/
theorem hostCmd_ends {s : State} (hi : s.Inv) (hst : s.st = .idle) (v : Word) :
    ∃ b : State, hostCmd v s = some (readWord b 1, { b with rdata := some (readWord b 1) }) ∧ b.Inv ∧ b.st = .idle ∧
      b.done = true ∧ ((∀ i, decodeCmd v ≠ .ok i) → b.result = .eIllegal) := by
  have haccept : (acceptCmd v (clearRdata s)).Inv := hi.clearRdata.acceptCmd v
  by_cases hillegal : ∀ i, decodeCmd v ≠ .ok i
  · have hend := engineStep_illegal
      (s := { acceptCmd v (clearRdata s) with rdata := some (readWord (acceptCmd v (clearRdata s)) 1) }) hillegal
    exact ⟨_, hostCmd_one hst v hend rfl, (haccept.withRdata _).engineCase (by simp) (engineStep_cases hend), rfl, rfl,
      fun _ => rfl⟩
  · obtain ⟨b, hb, hinv, hidle, hdone⟩ := waitEnds_start haccept rfl
    rw [← runStmts_cmd hst] at hb
    exact ⟨b, hb, hinv, hidle, hdone, fun h => absurd h hillegal⟩

/-- Settles O56: the wait ends on an idle machine with DONE set, and the word it read last shows that machine. -/
theorem waitSeesEveryCommandEnd : Obligations.WaitSeesEveryCommandEnd := by
  intro s v hi hst
  obtain ⟨b, hb, hinv, hidle, hdone, hillegal⟩ := hostCmd_ends hi hst v
  obtain ⟨hstatusBusy, hstatusResult⟩ := status_busy_result b
  refine ⟨_, _, hb, hinv.withRdata _, hidle, ?_, (status_flags b).1.trans hdone, hstatusResult, hillegal⟩
  rw [hstatusBusy]
  simp [State.busy, hidle]

end Sys2Proof.Machine
end

section
/-! PROOFS. The key schedule (40_key_schedule.md): the bytes of a key and its eight words (R110, R111), KEYLOAD of either kind of length
(R112, R113), and the order in which the rounds use the words (R114 to R118). -/

namespace Sys2Proof.Machine

/-- A finish with any code but WARN writes RESULT, DONE and the engine state alone (42_feistel.md R170). -/
theorem finish_of_ne_warn {c : ResultCode} (h : c ≠ .warn) (s : State) :
    finish c s = { s with result := c, done := true, st := .idle } := by
  simp [finish, h]

/-- R110: byte `j` of a key put together from bytes. -/
theorem keyByte_masterKey (key : List Byte) {j : Nat} (hj : j < 7) : keyByte (masterKey key) j = key.getD j 0 := by
  unfold keyByte masterKey
  interval_cases j <;>
  · simp (disch := decide) only [extract_append_left, extract_append_right]
    exact extract_self _

/-- R111: the expanded byte string repeats the key bytes. -/
theorem expandedByte_masterKey (key : List Byte) (j : Nat) : expandedByte (masterKey key) j = key.getD (j % 7) 0 :=
  keyByte_masterKey key (Nat.mod_lt j (by decide))

theorem expandKey_getElem (lKey : BitVec 56) {i : Nat} (h : i < 8) : (expandKey lKey)[i] = expandedWord lKey i :=
  Vector.getElem_ofFn h

/-- R111's table. -/
theorem expandKey_masterKey (k0 k1 k2 k3 k4 k5 k6 : Byte) :
    expandKey (masterKey [k0, k1, k2, k3, k4, k5, k6]) =
      #v[k0 ++ k1 ++ k2 ++ k3, k4 ++ k5 ++ k6 ++ k0, k1 ++ k2 ++ k3 ++ k4, k5 ++ k6 ++ k0 ++ k1,
        k2 ++ k3 ++ k4 ++ k5, k6 ++ k0 ++ k1 ++ k2, k3 ++ k4 ++ k5 ++ k6, k0 ++ k1 ++ k2 ++ k3] := by
  ext1 i hi
  rw [expandKey_getElem, expandedWord]
  simp only [expandedByte_masterKey]
  interval_cases i <;> rfl

/-- The first word is the first four key bytes. -/
theorem expandedWord_zero (lKey : BitVec 56) : expandedWord lKey 0 = lKey.extractLsb' 24 32 := by
  have h1 : keyByte lKey 0 ++ keyByte lKey 1 = lKey.extractLsb' 40 16 := extract_join (a := 8) (b := 8) lKey
  have h2 : lKey.extractLsb' 40 16 ++ keyByte lKey 2 = lKey.extractLsb' 32 24 := extract_join (a := 16) (b := 8) lKey
  have h3 : lKey.extractLsb' 32 24 ++ keyByte lKey 3 = lKey.extractLsb' 24 32 := extract_join (a := 24) (b := 8) lKey
  calc expandedWord lKey 0
    _ = keyByte lKey 0 ++ keyByte lKey 1 ++ keyByte lKey 2 ++ keyByte lKey 3 := rfl
    _ = lKey.extractLsb' 24 32 := by rw [h1, h2, h3]

/-- R117: the last word starts at expanded byte 28, which is key byte 0 again. -/
theorem expandedWord_seven (lKey : BitVec 56) : expandedWord lKey 7 = expandedWord lKey 0 := rfl

/-- A KEYLOAD of length 7 (R112). -/
theorem exec_keyload_seven (s : State) :
    exec (.keyload 7) s = .next (finish .ok { s with k := expandKey s.lKey, keyvalid := true }) := rfl

/-- What `K` is after a KEYLOAD of length 7. -/
theorem k_of_exec_keyload_seven {s t : State} (h : exec (.keyload 7) s = .next t) : t.k = expandKey s.lKey := by
  obtain rfl := Host.Outcome.next.inj ((exec_keyload_seven s).symm.trans h)
  rfl

/-- Settles O22: the latched bytes are a `masterKey`, whose words are R111's table, and the finish is an OK. -/
theorem keyloadWritesTheExpandedKey : Obligations.KeyloadWritesTheExpandedKey := by
  intro s k0 k1 k2 k3 k4 k5 k6 hkey
  have hkey : s.lKey = masterKey [k0, k1, k2, k3, k4, k5, k6] := hkey
  rw [exec_keyload_seven, hkey, expandKey_masterKey, finish_of_ne_warn (by decide)]

/-- Settles O23: another length is refused by KEYLOAD, and a missing key by the START step of ENC and of DEC. -/
theorem keyloadOfAnotherLength : Obligations.KeyloadOfAnotherLength := by
  refine ⟨fun klen s h7 => ?_, fun s hst hkey => ?_⟩
  · rw [exec, execKeyload_of_ne h7, finish_of_ne_warn (by decide)]
  · have hst : s.st ≠ .rounds := by simp [hst]
    rw [execEnc_start hst, execDec_start hst, encStart_noKey hkey, decStart_noKey hkey, finish_of_ne_warn (by decide)]
    exact ⟨rfl, rfl⟩

/-- R114 in rounds 0 to 23: the words in order, three times. -/
theorem kidx_of_lt {i : Nat} (h : i < 24) : kidx i = ⟨i % 8, by omega⟩ := dif_pos h

/-- R114 in rounds 24 to 31: the words in reverse. -/
theorem kidx_of_le {i : Nat} (h : 24 ≤ i) : kidx i = ⟨31 - i, by omega⟩ := dif_neg (by omega)

/-- An entry of the schedule is the word its index names. -/
theorem sched_of_kidx (k : Vector Word 8) {i : Nat} {j : Fin 8} (h : kidx i = j) : sched k i = k[j] :=
  congrArg (fun x : Fin 8 => k[x]) h

/-- Settles O24: the two branches of `kidx`, and both index sequences by evaluation. -/
theorem roundKeyOrder : Obligations.RoundKeyOrder := by
  refine ⟨fun k i h => ?_, fun k i h _ => ?_, fun k r => ⟨rfl, rfl⟩, by decide, by decide⟩
  · exact sched_of_kidx k (kidx_of_lt h)
  · exact sched_of_kidx k (kidx_of_le h)

/-- The rounds of ENC that use the first or the last word of `K` (R115). -/
theorem kidx_first_or_last : ∀ r ∈ [0, 7, 8, 15, 16, 23, 24, 31], kidx r = 0 ∨ kidx r = 7 := by decide

/-- Settles O25: the first and the last word of an expanded key are the same slice of the key, and those rounds use one of the two. -/
theorem firstAndLastKeyWordAgree : Obligations.FirstAndLastKeyWordAgree := by
  intro s
  have hfirst : (expandKey s.lKey)[0] = s.lKey.extractLsb' 24 32 := (expandKey_getElem _ _).trans (expandedWord_zero _)
  have hlast : (expandKey s.lKey)[7] = s.lKey.extractLsb' 24 32 :=
    (expandKey_getElem _ _).trans ((expandedWord_seven _).trans (expandedWord_zero _))
  refine ⟨_, exec_keyload_seven s, hlast.trans hfirst.symm, hfirst, hlast, fun r hr => ?_⟩
  rcases kidx_first_or_last r hr with h | h
  · exact (sched_of_kidx _ h).trans hfirst
  · exact (sched_of_kidx _ h).trans hlast

/-- Settles O26: both leave the expansion of the one latched key, and a schedule is a function of `K`. -/
theorem keyloadIsAFunctionOfTheKey : Obligations.KeyloadIsAFunctionOfTheKey := by
  intro s s' t t' hkey ht ht'
  have hk : t.k = t'.k := by rw [k_of_exec_keyload_seven ht, k_of_exec_keyload_seven ht', hkey]
  exact ⟨hk, fun r => by rw [hk]⟩

end Sys2Proof.Machine
end

section
/-! PROOFS. The S-box layer, the rotator and the round function (41_transform_round.md R130 to R138), and the diagnostic commands
(R143, R144). -/

namespace Sys2Proof.Machine

/-- R133: nibble `i` of `T(x)`. -/
theorem nibble_xform (sb : SBox) (x : Word) (i : Fin 8) : nibble (xform sb x) i = sboxAt sb i (nibble x i) := by
  show (xform sb x).extractLsb' (4 * i) 4 = _
  unfold xform
  fin_cases i <;>
  · simp (disch := decide) only [extract_append_left, extract_append_right]
    exact extract_self _

/-- Bit `b` of a nibble is a bit of the word. -/
theorem nibble_getLsbD (x : Word) (i : Nat) {b : Nat} (hb : b < 4) : (nibble x i).getLsbD b = x.getLsbD (4 * i + b) := by
  simp only [nibble, BitVec.getLsbD_extractLsb', hb, decide_true, Bool.true_and]

/-- A word is its eight nibbles. -/
theorem eq_of_nibble_eq {x y : Word} (h : ∀ i : Fin 8, nibble x i = nibble y i) : x = y := by
  apply BitVec.eq_of_getLsbD_eq
  intro j hj
  have hb : j % 4 < 4 := Nat.mod_lt j (by decide)
  have hbit := congrArg (fun v : Nibble => v.getLsbD (j % 4)) (h ⟨j / 4, by omega⟩)
  rwa [nibble_getLsbD x _ hb, nibble_getLsbD y _ hb, Nat.div_add_mod] at hbit

/-- Under the law of R130 the nibbles of `T(x)` tell those of `x`; an injection of the finite words into themselves is onto. -/
theorem xform_bijective {sb : SBox} (h : SBoxLaw sb) : Function.Bijective (xform sb) := by
  apply Function.Injective.bijective_of_finite
  intro x y hxy
  refine eq_of_nibble_eq fun i => h i _ _ ?_
  rw [← nibble_xform, ← nibble_xform, hxy]

/-- R135: where the rotator moves bit `j`. -/
theorem rotl11_getLsbD (x : Word) {j : Nat} (hj : j < 32) : (rotl11 x).getLsbD ((j + 11) % 32) = x.getLsbD j := by
  rw [rotl11, BitVec.getLsbD_append, BitVec.getLsbD_extractLsb', BitVec.getLsbD_extractLsb']
  by_cases hlow : j < 21
  · rw [Nat.mod_eq_of_lt (by omega), if_neg (by omega), decide_eq_true (by omega), Bool.true_and,
      Nat.zero_add, Nat.add_sub_cancel]
  · rw [show (j + 11) % 32 = j - 21 by omega, if_pos (by omega), decide_eq_true (by omega), Bool.true_and,
      Nat.add_sub_cancel' (Nat.le_of_not_lt hlow)]

/-- Bit `j` of a rotation by 21 is the bit at `(j + 11) mod 32`. -/
theorem rotateLeft21_getLsbD (y : Word) {j : Nat} (hj : j < 32) :
    (y.rotateLeft 21).getLsbD j = y.getLsbD ((j + 11) % 32) := by
  rw [BitVec.getLsbD_rotateLeft]
  by_cases hlow : j < 21
  · rw [show (j + 11) % 32 = 11 + j by omega]
    simp [hlow]
  · rw [show (j + 11) % 32 = j - 21 by omega]
    simp [hlow, hj]

/-- A rotation by 21 undoes the one by 11. -/
theorem rotl11_rotateLeft (x : Word) : (rotl11 x).rotateLeft 21 = x :=
  BitVec.eq_of_getLsbD_eq fun _ hj => by rw [rotateLeft21_getLsbD _ hj, rotl11_getLsbD x hj]

theorem rotl11_bijective : Function.Bijective rotl11 :=
  have hleft : Function.LeftInverse (fun y : Word => y.rotateLeft 21) rotl11 := rotl11_rotateLeft
  hleft.injective.bijective_of_finite

/-- The operands of the round function reach it through their sum alone (R136). -/
theorem roundFn_eq_of_add_eq (sb : SBox) {a k b l : Word} (h : a + k = b + l) : roundFn sb a k = roundFn sb b l :=
  congrArg (fun sum => rotl11 (xform sb sum)) h

/-- R137: `g` in its first operand is a translation, then `T`, then the rotator. -/
theorem roundFn_bijective {sb : SBox} (h : SBoxLaw sb) (k : Word) : Function.Bijective fun half => roundFn sb half k :=
  rotl11_bijective.comp ((xform_bijective h).comp (Equiv.addRight k).bijective)

/-- Settles O30: `T` by its nibbles, the rotator by its bits, `g` as their composition. -/
theorem roundFunctionIsBijective : Obligations.RoundFunctionIsBijective := by
  intro sb hlaw
  refine ⟨xform_bijective hlaw, ⟨rotl11_bijective, rotl11_rotateLeft⟩, roundFn_bijective hlaw, fun a k d => ?_, fun i => ?_⟩
  · exact roundFn_eq_of_add_eq sb (add_add_sub_cancel a k d).symm
  · have hzero : nibble 0 i = 0 := BitVec.extractLsb'_zero
    exact (nibble_xform sb 0 i).trans (congrArg (sboxAt sb i) hzero)

/-- Settles O27: `nibble` is the slice, and `sboxAt` the table entry. -/
theorem xformActsNibblewise : Obligations.XformActsNibblewise := nibble_xform

/-- Settles O28: the slices are the rotator's definition. -/
theorem rotatorMovesEachBit : Obligations.RotatorMovesEachBit :=
  fun x => ⟨rfl, fun _ hj => rotl11_getLsbD x hj⟩

/-- R134: the adder of the round function, as a sum modulo 2^32. -/
theorem add32_eq_ofNat (a b : Word) : add32 a b = BitVec.ofNat 32 ((a.toNat + b.toNat) % 2 ^ 32) := by
  rw [add32, ← BitVec.toNat_add, BitVec.ofNat_toNat, BitVec.setWidth_eq]

/-- R138: under the zero key nothing is added. -/
theorem roundFn_zero_key (sb : SBox) (half : Word) : roundFn sb half 0 = rotl11 (xform sb half) :=
  congrArg (fun sum => rotl11 (xform sb sum)) (add_zero half)

/-- Settles O29: both wrapping pairs of operands have the sum 0. -/
theorem roundFunctionCorners : Obligations.RoundFunctionCorners := by
  intro sb
  refine ⟨fun half k => ?_, roundFn_eq_of_add_eq sb (by decide), roundFn_eq_of_add_eq sb (by decide),
    roundFn_zero_key sb 0, roundFn_zero_key sb⟩
  rw [roundFn, add32_eq_ofNat]

/-- Settles O31: both commands write DOUT and finish OK, and an OK sets no flag but DONE. -/
theorem diagnosticCommands : Obligations.DiagnosticCommands := by
  intro s
  have hok : ∀ u : State, finish .ok u = { u with result := .ok, done := true, st := .idle } :=
    finish_of_ne_warn (by decide)
  exact ⟨congrArg Host.Outcome.next (hok _), congrArg Host.Outcome.next (hok _)⟩

end Sys2Proof.Machine
end

section
/-! PROOFS. The Feistel engine, one engine step at a time (42_feistel.md R161 to R167): the START step of ENC and DEC, the ROUNDS steps,
and `crypt`. -/

namespace Sys2Proof.Machine

/-- A finish with WARN sets the sticky flag too (42_feistel.md R170). -/
theorem finish_warn_eq (s : State) : finish .warn s = { s with result := .warn, done := true, warn := true, st := .idle } := by
  simp [finish]

/-- R214: the code of an ENC by the soft threshold. -/
theorem encCode_eq (s : State) :
    encCode s = if s.params.warnBytes < (usageAt s s.lKeyid).toNat then .warn else .ok := by
  simp only [encCode, usageWarns, decide_eq_true_eq]

/-- Settles O32: the checks in R164's order, each ending in a finish that is no WARN, and then the start of the rounds. -/
theorem cipherStartChecks : Obligations.CipherStartChecks := by
  intro s hstart
  have hst : s.st ≠ .rounds := by simp [hstart]
  refine ⟨fun hillegal => ?_, fun hkey => ⟨?_, ?_⟩, fun hkey => ?_, fun hkey hover => ?_, fun hkey hroom => ?_⟩
  · rw [engineStep_illegal hillegal, finish_of_ne_warn (by decide)]
  · rw [execEnc_start hst, encStart_noKey hkey, finish_of_ne_warn (by decide)]
  · rw [execDec_start hst, decStart_noKey hkey, finish_of_ne_warn (by decide)]
  · rw [execDec_start hst, decStart_begin hkey]; rfl
  · rw [execEnc_start hst, encStart_exhausted hkey hover, finish_of_ne_warn (by decide)]
  · rw [execEnc_start hst, encStart_begin hkey hroom]; rfl

/-- Settles O33: a round before the last one, under the round key that the schedule gives each direction. -/
theorem middleRoundSwaps : Obligations.MiddleRoundSwaps := by
  intro s hst hr
  rw [execEnc_rounds hst, execDec_rounds hst, roundsStep_middle hr, roundsStep_middle hr]
  exact ⟨rfl, rfl⟩

/-- Settles O34: the last round of DEC ends OK, that of ENC by its counter. -/
theorem lastRoundFinishes : Obligations.LastRoundFinishes := by
  intro s hst hr
  have hlast : ¬s.r.toNat < 31 := by omega
  rw [execDec_rounds hst, execEnc_rounds hst, roundsStep_last hlast, roundsStep_last hlast, hr, encCode_eq]
  refine ⟨?_, fun (hle : (usageAt s s.lKeyid).toNat ≤ _) => ?_, fun (hlt : _ < (usageAt s s.lKeyid).toNat) => ?_⟩
  · rw [finish_of_ne_warn (by decide)]; rfl
  · rw [if_neg (Nat.not_lt.2 hle), finish_of_ne_warn (by decide)]; rfl
  · rw [if_pos hlt, finish_warn_eq]; rfl

/-- Settles O35: the exchange after the 32nd swapped round undoes the swap in it. -/
theorem cryptIsSwappedRoundsAndAnExchange : Obligations.CryptIsSwappedRoundsAndAnExchange := by
  intro sb ks hi lo
  rw [crypt_eq_swap]
  exact ⟨rfl, rfl, fun _ => rfl⟩

end Sys2Proof.Machine
end

section
/-! PROOFS. The block functions `E` and `D` (42_feistel.md R161, R169): they undo each other, and a message is theirs block by block. -/

namespace Sys2Proof.Machine

/-- R169: DEC runs ENC's round keys in reverse. -/
theorem decPair_encPair (sb : SBox) (k : Vector Word 8) (p : Word × Word) : decPair sb k (encPair sb k p) = p :=
  crypt_reverse sb (encKey k) (decKey k) (fun _ _ => rfl) p

/-- R169: ENC runs DEC's round keys in reverse. -/
theorem encPair_decPair (sb : SBox) (k : Vector Word 8) (p : Word × Word) : encPair sb k (decPair sb k p) = p := by
  refine crypt_reverse sb (decKey k) (encKey k) (fun r hr => ?_) p
  have hrev : 31 - (31 - r) = r := by omega
  rw [encKey, decKey, hrev]

/-- A block function on a block put together from its halves. -/
theorem onBlock_append (f : Word × Word → Word × Word) (h l : Word) : onBlock f (h ++ l) = (f (h, l)).1 ++ (f (h, l)).2 := by
  rw [onBlock, blockHi_append, blockLo_append]

/-- The halves of what a block function answers. -/
theorem onBlock_halves (f : Word × Word → Word × Word) (p : Word × Word) :
    (blockHi (onBlock f (p.1 ++ p.2)), blockLo (onBlock f (p.1 ++ p.2))) = f p := by
  rw [onBlock_append, blockHi_append, blockLo_append]

/-- An inverse on the halves is an inverse on the blocks. -/
theorem onBlock_leftInverse {f g : Word × Word → Word × Word} (h : Function.LeftInverse f g) :
    Function.LeftInverse (onBlock f) (onBlock g) := by
  intro x
  rw [onBlock, onBlock, blockHi_append, blockLo_append, h, blockHi_blockLo]

/-- The bytes of a sequence of blocks that went through a block function, each in its own place. -/
theorem blocksBytes_map (f : Word × Word → Word × Word) (ps : List (Word × Word)) :
    blocksBytes (ps.map f) =
      ps.flatMap fun p => pairBytes (blockHi (onBlock f (p.1 ++ p.2)), blockLo (onBlock f (p.1 ++ p.2))) := by
  simp only [onBlock_halves, blocksBytes, List.flatMap_map]

/-- Whole blocks at the front of a message are encrypted apart from what follows them. -/
theorem ecbEncrypt_append (sb : SBox) (k : Vector Word 8) (ps : List (Word × Word)) (d : List Byte) :
    ecbEncrypt sb k (blocksBytes ps ++ d) = blocksBytes (ps.map (encPair sb k)) ++ ecbEncrypt sb k d := by
  rw [ecbEncrypt, padMsg_append, splitBlocks_append, List.map_append, blocksBytes_append, ecbEncrypt]

/-- Whole blocks at the front of a ciphertext are decrypted apart from what follows them. -/
theorem ecbDecrypt_append (sb : SBox) (k : Vector Word 8) (ps : List (Word × Word)) (d : List Byte) :
    ecbDecrypt sb k (blocksBytes ps ++ d) = blocksBytes (ps.map (decPair sb k)) ++ ecbDecrypt sb k d := by
  rw [ecbDecrypt, splitBlocks_append, List.map_append, blocksBytes_append, ecbDecrypt]

/-- Settles O36: the inverses on the halves carried over to blocks, and a message by its whole blocks and the rest. -/
theorem cipherRoundTrip : Obligations.CipherRoundTrip := by
  intro sb k
  refine ⟨onBlock_leftInverse (decPair_encPair sb k), onBlock_leftInverse (encPair_decPair sb k), fun ps d => ⟨?_, ?_⟩⟩
  · rw [ecbEncrypt_append, blocksBytes_map]; rfl
  · rw [ecbDecrypt_append, blocksBytes_map]; rfl

end Sys2Proof.Machine
end

section
/-! PROOFS. How long a command takes (42_feistel.md R163, R168, 70_reset_and_hazards.md R294): one cycle, or the START step and 32 ROUNDS
steps of an ENC or DEC that passes its checks, whatever the host does on the bus meanwhile. -/

namespace Sys2Proof.Machine

/-- The START step that begins the rounds is that of an ENC or DEC that passes R164's checks. -/
theorem EngineCase.begins {s t : State} (h : EngineCase s t) (hstart : s.st = .start) (hrounds : t.st = .rounds) :
    s.keyvalid = true ∧
      (decodeCmd s.lCmd = .ok .enc ∧ (usageAt s s.lKeyid).toNat + Config.chargeBytes ≤ s.params.ceilBytes ∨
        decodeCmd s.lCmd = .ok .dec) := by
  cases h with
  | encBegin hd _ hk hroom => exact ⟨hk, .inl ⟨hd, hroom⟩⟩
  | decBegin hd _ hk => exact ⟨hk, .inr hd⟩
  | encRound _ hst => simp [hstart] at hst
  | decRound _ hst => simp [hstart] at hst
  | _ => simp at hrounds

/-- Settles O51: a START step finishes or begins the rounds, and each of the three kinds of command fails a check of the latter. -/
theorem otherCommandsTakeOneCycle : Obligations.OtherCommandsTakeOneCycle := by
  intro s t hstart hr h hother
  rcases step_cases hr h with ⟨hidle, -⟩ | ⟨-, u, hu, hc⟩
  · simp [hstart] at hidle
  · rcases hc.start (hu.st.trans hstart) with hend | ⟨hrounds, -⟩
    · exact hend
    · have hpass := hc.begins (hu.st.trans hstart) hrounds
      simp only [usageAt, hu.lCmd, hu.keyvalid, hu.usageT, hu.lKeyid, hu.params, Config.chargeBytes] at hpass
      obtain ⟨hkey, ⟨hd, hroom⟩ | hd⟩ := hpass
      · rcases hother with ⟨hne, -⟩ | hnokey | ⟨-, hover⟩
        · exact absurd hd hne
        · simp [hkey] at hnokey
        · omega
      · rcases hother with ⟨-, hne⟩ | hnokey | ⟨henc, -⟩
        · exact absurd hd hne
        · simp [hkey] at hnokey
        · simp [hd] at henc

/-- A run of `m + 1` cycles is a run of `m` and a step. -/
theorem runCycles_succ_right {s t u : State} {m : Nat} (h : runCycles m s = .next t) (hstep : step t = .next u) :
    runCycles (m + 1) s = .next u := by
  induction m generalizing s with
  | zero =>
    obtain rfl : s = t := Host.Outcome.next.inj h
    exact runCycles_succ hstep 0
  | succ m ih =>
    obtain ⟨v, hv⟩ := step_next s
    rw [runCycles_succ hv] at h ⊢
    exact ih h

/-- What the last of 32 rounds leaves: the command that `s` holds in its latches has finished, with `crypt` of the latched block under
the round keys `ks` in DOUT (42_feistel.md R167). -/
structure RoundsDone (ks : Nat → Word) (s t : State) : Prop where
  st : t.st = .idle
  done : t.done = true
  r : t.r.toNat = 31
  dout : (t.doutHi, t.doutLo) = crypt s.sbox ks (s.nHi, s.nLo)
  result : t.result = if decodeCmd s.lCmd = .ok .enc then encCode s else .ok
  warn : t.result = .warn → t.warn = true
  k : t.k = s.k
  keyvalid : t.keyvalid = s.keyvalid
  uplen : t.uplen = s.uplen
  usageT : t.usageT = s.usageT

/-- A cycle in the rounds before the last one, whatever the host does in it. -/
theorem InRounds.step_middle {ks : Nat → Word} {s u : State} {n m : Nat} (hk : RoundKeysOf ks s) (h : InRounds ks s n u)
    (hn : n < 31) (hr : u.noReset (m + 1)) : ∃ v, step u = .next v ∧ InRounds ks s (n + 1) v ∧ v.noReset m := by
  obtain ⟨w, hw, hin, -, -, hstep⟩ := step_busy (noReset_next hr) (by simp [h.st])
  obtain ⟨v, hv, hround, hkeeps⟩ := (h.sameEngine hw).engineStep_middle hk hn
  exact ⟨v, hstep.trans hv, hround, noReset_tail hr (hkeeps.inputs.trans hin)⟩

/-- The cycle of the last round, whatever the host does in it. -/
theorem InRounds.step_last {ks : Nat → Word} {s u : State} (hk : RoundKeysOf ks s) (h : InRounds ks s 31 u)
    (hr : (nextInput u).rst = false) : ∃ t, step u = .next t ∧ RoundsDone ks s t := by
  obtain ⟨w, hw, -, -, -, hstep⟩ := step_busy hr (by simp [h.st])
  have hround := h.sameEngine hw
  have hcode : encCode w = encCode s := by
    rw [encCode_eq, encCode_eq, usageAt, hround.usageT, hround.lKeyid, hround.params]
    rfl
  obtain ⟨t, ht, -, hst, hdone, hrt, hdout, hresult, hwarn, hkt, hkv, huplen, husage⟩ := hround.engineStep_last hk
  refine ⟨t, hstep.trans ht, hst, hdone, ?_, hdout, hcode ▸ hresult, fun h => ?_, hkt, hkv, huplen, husage⟩
  · rw [hrt, hround.r]
  · simp [hwarn, h]

section Run

variable {ks : Nat → Word} {s b : State}

/-- The START cycle of a command whose START step begins the rounds of `b`, whatever the host does in it. -/
theorem step_start (hstart : s.st = .start) (hbegin : engineStep s = .next (beginRounds b)) {m : Nat}
    (hr : s.noReset (m + 1)) : ∃ u, step s = .next u ∧ InRounds ks b 0 u ∧ u.noReset m := by
  obtain ⟨w, hw, hin, -, -, hstep⟩ := step_busy (noReset_next hr) (by simp [hstart])
  obtain ⟨u, hu, hc⟩ := engineStep_case w
  exact ⟨u, hstep.trans hu, (beginRounds_inRounds ks b).sameEngine (engineStep_sameEngine hw hbegin hu),
    noReset_tail hr (hc.keeps.inputs.trans hin)⟩

/-- After the START cycle and `n` more, `n` rounds have run. -/
theorem runCycles_inRounds (hstart : s.st = .start) (hbegin : engineStep s = .next (beginRounds b)) (hk : RoundKeysOf ks b)
    (n : Nat) {m : Nat} (hn : n ≤ 31) (hr : s.noReset (n + 1 + m)) :
    ∃ u, runCycles (n + 1) s = .next u ∧ InRounds ks b n u ∧ u.noReset m := by
  induction n generalizing m with
  | zero =>
    obtain ⟨u, hu, hround, hur⟩ := step_start (ks := ks) hstart hbegin (m := m) (by rwa [Nat.add_comm])
    exact ⟨u, runCycles_succ hu 0, hround, hur⟩
  | succ n ih =>
    obtain ⟨u, hu, hround, hur⟩ := ih (m := m + 1) (by omega) (by rwa [Nat.add_comm m, ← Nat.add_assoc])
    obtain ⟨v, hv, hnext, hvr⟩ := hround.step_middle hk (by omega) hur
    exact ⟨v, runCycles_succ_right hu hv, hnext, hvr⟩

/-- R168: the whole run of 33 cycles, seen after each of them. -/
theorem runCycles_cipher (hstart : s.st = .start) (hbegin : engineStep s = .next (beginRounds b)) (hk : RoundKeysOf ks b)
    (hr : s.noReset 33) :
    (∀ n, 0 < n → n < 33 → ∃ u, runCycles n s = .next u ∧ InRounds ks b (n - 1) u) ∧
      ∃ t, runCycles 33 s = .next t ∧ RoundsDone ks b t := by
  constructor
  · rintro (_ | n) hpos hlt
    · omega
    · obtain ⟨u, hu, hround, -⟩ := runCycles_inRounds hstart hbegin hk n (m := 32 - n) (by omega)
        (by rwa [show n + 1 + (32 - n) = 33 by omega])
      exact ⟨u, hu, hround⟩
  · obtain ⟨u, hu, hround, hur⟩ := runCycles_inRounds hstart hbegin hk 31 (m := 1) (Nat.le_refl 31) hr
    obtain ⟨t, ht, hdone⟩ := hround.step_last hk (noReset_next hur)
    exact ⟨t, runCycles_succ_right hu ht, hdone⟩

end Run

/-- A counter of the table reads back what was written to it (10_state.md R46). -/
theorem usageAt_setUsage {s : State} {j : Word} (hj : j.toNat < s.usageT.length) (v : Word) :
    usageAt (setUsage j v s) j = v := by
  simp [usageAt, List.getD_eq_getElem?_getD, hj]

/-- The counter that was charged reads as the new total, which fits its word (44_usage.md R213). -/
theorem State.Inv.usageAt_charged {s : State} (hi : s.Inv) {total : Nat} (hroom : total ≤ s.params.ceilBytes) :
    (usageAt (setUsage s.lKeyid (BitVec.ofNat 32 total) s) s.lKeyid).toNat = total := by
  have hmem : s.lKeyid.toNat < s.usageT.length := by rw [hi.usage_length]; exact hi.lKeyid_lt
  have hword := s.params.ceil_lt
  rw [usageAt_setUsage hmem, BitVec.toNat_ofNat, Nat.mod_eq_of_lt (by omega)]

/-- What an observer of the block sees of an unfinished run (R286). -/
theorem InRounds.unfinished {ks : Nat → Word} {b u : State} {n : Nat} (h : InRounds ks b n u) :
    u.st = .rounds ∧ u.r.toNat = n ∧ u.doutHi = b.doutHi ∧ u.doutLo = b.doutLo :=
  ⟨h.st, h.r, h.doutHi, h.doutLo⟩

/-- DOUT after the last round, as a block. -/
theorem RoundsDone.block {ks : Nat → Word} {b t : State} (h : RoundsDone ks b t) :
    t.doutHi ++ t.doutLo = onBlock (crypt b.sbox ks) (b.nHi ++ b.nLo) := by
  rw [onBlock_append, ← h.dout]

/-- Settles O37: the run whose START step charged the counter, the code by the charged total. -/
theorem encRunComputesE : Obligations.EncRunComputesE := by
  intro s hi hstart hd hkey hroom hr
  have hroom : (usageAt s s.lKeyid).toNat + Config.chargeBytes ≤ s.params.ceilBytes := hroom
  have hbegin := (EngineCase.encBegin hd (by simp [hstart]) hkey hroom).engineStep_eq
  obtain ⟨hmiddle, t, ht, hend⟩ := runCycles_cipher (ks := encKey s.k) hstart hbegin (.inl ⟨hd, rfl⟩) hr
  refine ⟨fun n hpos hlt => ?_, t, ht, hend.st, hend.done, hend.block, ?_, hend.warn, hend.r, hend.k,
    hend.keyvalid.trans hkey, hend.uplen, hend.usageT⟩
  · obtain ⟨u, hu, hround⟩ := hmiddle n hpos hlt
    exact ⟨u, hu, hround.unfinished⟩
  · rw [hend.result, if_pos (by exact hd), encCode_eq, setUsage_lKeyid, hi.usageAt_charged hroom]
    rfl

/-- Settles O38: the run whose START step charges nothing. -/
theorem decRunComputesD : Obligations.DecRunComputesD := by
  intro s _ hstart hd hkey hr
  have hbegin := (EngineCase.decBegin hd (by simp [hstart]) hkey).engineStep_eq
  obtain ⟨hmiddle, t, ht, hend⟩ := runCycles_cipher (ks := decKey s.k) hstart hbegin (.inr ⟨hd, rfl⟩) hr
  refine ⟨fun n hpos hlt => ?_, t, ht, hend.st, hend.done, hend.block, ?_, hend.r, hend.k,
    hend.keyvalid.trans hkey, hend.uplen, hend.usageT⟩
  · obtain ⟨u, hu, hround⟩ := hmiddle n hpos hlt
    exact ⟨u, hu, hround.unfinished⟩
  · rw [hend.result, if_neg (by simp [hd])]

end Sys2Proof.Machine
end

section
/-! PROOFS. The padding codec (43_padding.md): a block's last non-zero byte and what PAD and UNPAD make of it (R194, R196, R197),
the padding and unpadding of a message (R191 to R193), and the blocks of a message padded and scanned one by one (R195). -/

namespace Sys2Proof.Machine

/-- R194: byte `j` of a padded block. -/
theorem blockByte_padblk (blk : Block) (n : Nat) {j : Nat} (hj : j < 8) :
    blockByte (padblk blk n) j = if j < n then blockByte blk j else if j = n then 0x80 else 0x00 :=
  blockByte_blockOfBytes _ hj

/-- Byte `p` is the last of a block's eight that is not zero. -/
structure LastNonzeroAt (b : Block) (p : Nat) : Prop where
  lt : p < 8
  ne_zero : blockByte b p ≠ 0
  zero_after : ∀ j, p < j → j < 8 → blockByte b j = 0

/-- A block is all zero or has a last non-zero byte: the two ways `lastNonzero` answers. -/
theorem allZero_or_lastNonzeroAt (b : Block) : (∀ j, j < 8 → blockByte b j = 0) ∨ ∃ p, LastNonzeroAt b p := by
  refine or_iff_not_imp_left.2 fun hnonzero => ?_
  obtain ⟨j, hj, hbyte⟩ : ∃ j, j < 8 ∧ blockByte b j ≠ 0 := by simpa using hnonzero
  have hlast := Nat.findGreatest_spec (P := fun i => blockByte b i ≠ 0) (Nat.le_of_lt_succ hj) hbyte
  refine ⟨_, Nat.lt_succ_of_le (Nat.findGreatest_le 7), hlast, fun i hi h8 => ?_⟩
  exact not_not.1 (Nat.findGreatest_is_greatest hi (Nat.le_of_lt_succ h8))

/-- R194: `unpadblk` of an all-zero block. -/
theorem unpadblk_allZero {b : Block} (h : ∀ j, j < 8 → blockByte b j = 0) : unpadblk b = (.padAllzero, 0) := by
  rw [unpadblk, lastNonzero_none 8 h]

/-- R194: `unpadblk` of a block whose last non-zero byte is the marker. -/
theorem unpadblk_marker {b : Block} {p : Nat} (h : LastNonzeroAt b p) (hmarker : blockByte b p = 0x80) :
    unpadblk b = (.ok, p) := by
  rw [unpadblk, lastNonzero_some h.ne_zero 8 h.lt h.zero_after]
  exact if_pos hmarker

/-- R194: `unpadblk` of a block whose last non-zero byte is another one. -/
theorem unpadblk_badpad {b : Block} {p : Nat} (h : LastNonzeroAt b p) (hother : blockByte b p ≠ 0x80) :
    unpadblk b = (.eBadpad, 8) := by
  rw [unpadblk, lastNonzero_some h.ne_zero 8 h.lt h.zero_after]
  exact if_neg hother

/-- R197: UNPAD's next state, by the answer of `unpadblk`. -/
theorem exec_unpad {s : State} {c : ResultCode} {len : Nat} (h : unpadblk (s.nHi ++ s.nLo) = (c, len)) (hc : c ≠ .warn) :
    exec .unpad s = .next { s with uplen := BitVec.ofNat 32 len, result := c, done := true, st := .idle } := by
  rw [exec, execUnpad, h, finish_of_ne_warn hc]

/-- Settles O40: the scan of `unpadblk` on the latched block, and none of its three codes is WARN. -/
theorem unpadFindsTheLastNonzeroByte : Obligations.UnpadFindsTheLastNonzeroByte := by
  intro s byte hbyte
  obtain rfl : byte = blockByte (s.nHi ++ s.nLo) := funext hbyte
  refine ⟨fun hzero => exec_unpad (unpadblk_allZero hzero) (by decide), fun p hp hne hafter => ?_⟩
  have hlast : LastNonzeroAt (s.nHi ++ s.nLo) p := ⟨hp, hne, hafter⟩
  exact ⟨fun hmarker => exec_unpad (unpadblk_marker hlast hmarker) (by decide),
    fun hother => exec_unpad (unpadblk_badpad hlast hother) (by decide)⟩

/-- Settles O39: DOUT is the two halves of the padded block, and an OK sets no flag but DONE. -/
theorem padWritesMarkerAndZeros : Obligations.PadWritesMarkerAndZeros := by
  intro s n _
  refine ⟨_, rfl, ?_, fun j hj => ?_⟩
  · exact finish_of_ne_warn (by decide) _
  · show blockByte (blockHi _ ++ blockLo _) j = _
    rw [blockHi_blockLo, blockByte_padblk _ _ hj]
    rfl

/-- R191: the padding appended to a message. -/
theorem padMsg_eq (d : List Byte) : padMsg d = d ++ 0x80 :: List.replicate (7 - d.length % 8) 0 :=
  List.append_assoc d [0x80] _

/-- R191: a padded message fills one block more than the whole ones of the message. -/
theorem padMsg_length (d : List Byte) : (padMsg d).length = 8 * (d.length / 8 + 1) := by
  rw [padMsg_eq, List.length_append, List.length_cons, List.length_replicate]
  omega

/-- Settles O52: the padding's length and its bytes, as the two lemmas above say. -/
theorem padMessageShape : Obligations.PadMessageShape := fun d => ⟨padMsg_length d, padMsg_eq d⟩

/-- R192: in zeros alone there is no marker. -/
theorem unpadMsg_allZero {d : List Byte} (h : ∀ b ∈ d, b = 0) : unpadMsg d = (d, true) := by
  have hscan : d.reverse.dropWhile (fun b => b = 0) = [] := by simpa [List.dropWhile_eq_nil_iff] using h
  rw [unpadMsg, hscan]

/-- R192: the last non-zero byte decides. -/
theorem unpadMsg_lastNonzero {d before : List Byte} {b : Byte} {n : Nat} (hd : d = before ++ b :: List.replicate n 0)
    (hb : b ≠ 0) : unpadMsg d = if b = 0x80 then (before, false) else (d, true) := by
  have hrev : d.reverse = List.replicate n 0 ++ b :: before.reverse := by simp [hd]
  have hscan : d.reverse.dropWhile (fun b => b = 0) = b :: before.reverse := by
    rw [hrev, List.dropWhile_append_of_pos (by simp), List.dropWhile_cons_of_neg (by simpa using hb)]
  rw [unpadMsg, hscan]
  simp only [List.reverse_reverse]

/-- Settles O53: a message of zeros alone, and one with a last non-zero byte. -/
theorem unpadMessageByLastNonzeroByte : Obligations.UnpadMessageByLastNonzeroByte :=
  fun _ => ⟨unpadMsg_allZero, fun _ _ _ hd hb => unpadMsg_lastNonzero hd hb⟩

/-- Settles O54: the last non-zero byte of a padded message is the marker that the padding appended. -/
theorem unpadInvertsPad : Obligations.UnpadInvertsPad :=
  fun d => unpadMsg_lastNonzero (padMsg_eq d) (by decide)

@[simp] theorem pairBytes_length (p : Word × Word) : (pairBytes p).length = 8 := rfl

/-- The bytes of a pair of words are those of the block they make. -/
theorem pairBytes_getElem (p : Word × Word) {j : Nat} (hj : j < (pairBytes p).length) :
    (pairBytes p)[j] = blockByte (p.1 ++ p.2) j := by
  have h := pairBytes_block (p.1 ++ p.2)
  rw [blockHi_append, blockLo_append] at h
  simp [h]

/-- A pair of words whose block is all zero is eight zero bytes. -/
theorem pairBytes_allZero {p : Word × Word} (h : ∀ j, j < 8 → blockByte (p.1 ++ p.2) j = 0) :
    pairBytes p = List.replicate 8 0 := by
  refine List.ext_getElem (by simp) fun j hj _ => ?_
  rw [pairBytes_getElem, h j hj, List.getElem_replicate]

/-- The bytes of a pair of words and the zeros after them, cut at the last byte that is not zero. -/
theorem pairBytes_lastNonzero {p : Word × Word} {i : Nat} (h : LastNonzeroAt (p.1 ++ p.2) i) (n : Nat) :
    pairBytes p ++ List.replicate n 0 =
      (pairBytes p).take i ++ blockByte (p.1 ++ p.2) i :: List.replicate (7 - i + n) 0 := by
  have hi : i < (pairBytes p).length := h.lt
  have hzeros : (pairBytes p).drop (i + 1) = List.replicate (7 - i) 0 := by
    refine List.ext_getElem (by simp) fun j hj _ => ?_
    rw [List.length_drop, pairBytes_length] at hj
    rw [List.getElem_drop, List.getElem_replicate, pairBytes_getElem, h.zero_after _ (by omega) (by omega)]
  rw [← List.replicate_append_replicate, ← hzeros, ← pairBytes_getElem p hi, ← List.cons_append,
    ← List.drop_eq_getElem_cons hi, ← List.append_assoc, List.take_append_drop]

/-- R195: the scan of whole blocks, last first, past `n` trailing zeros, is `unpad`. -/
theorem unpadBlocks_of_zeros (last : List (Word × Word)) (n : Nat) (whole : List Byte)
    (h : whole = blocksBytes last.reverse ++ List.replicate n 0) : unpadBlocks whole last = unpadMsg whole := by
  induction last generalizing n with
  | nil =>
    refine (unpadMsg_allZero fun b hb => ?_).symm
    rw [h] at hb
    exact List.eq_of_mem_replicate hb
  | cons p before ih =>
    have hcut : whole = blocksBytes before.reverse ++ (pairBytes p ++ List.replicate n 0) := by simpa using h
    rcases allZero_or_lastNonzeroAt (p.1 ++ p.2) with hzero | ⟨i, hlast⟩
    · rw [unpadBlocks, unpadblk_allZero hzero]
      refine ih (8 + n) ?_
      rw [hcut, pairBytes_allZero hzero, List.replicate_append_replicate]
    · have hmsg : whole = (blocksBytes before.reverse ++ (pairBytes p).take i) ++
          blockByte (p.1 ++ p.2) i :: List.replicate (7 - i + n) 0 := by
        rw [hcut, pairBytes_lastNonzero hlast, List.append_assoc]
      rw [unpadMsg_lastNonzero hmsg hlast.ne_zero]
      by_cases hmarker : blockByte (p.1 ++ p.2) i = 0x80
      · rw [unpadBlocks, unpadblk_marker hlast hmarker, if_pos hmarker]
      · rw [unpadBlocks, unpadblk_badpad hlast hmarker, if_neg hmarker]

/-- R195: the padded tail of a message is `padblk` of any block that begins with the tail. -/
theorem padMsg_tail {rest : List Byte} (hlen : rest.length < 8) {t : Block}
    (ht : ∀ j, j < rest.length → blockByte t j = rest.getD j 0) :
    padMsg rest = pairBytes (blockHi (padblk t rest.length), blockLo (padblk t rest.length)) := by
  refine List.ext_getElem (by rw [padMsg_length, pairBytes_length]; omega) fun j _ hj => ?_
  rw [pairBytes_getElem, blockHi_blockLo, blockByte_padblk _ _ hj]
  simp only [padMsg_eq]
  rcases Nat.lt_trichotomy j rest.length with hlt | rfl | hgt
  · rw [if_pos hlt, ht j hlt, List.getElem_append_left hlt]
    simp [hlt]
  · simp
  · rw [if_neg (by omega), if_neg (by omega), List.getElem_append_right (by omega), List.getElem_cons, dif_neg (by omega),
      List.getElem_replicate]

/-- The whole blocks of a message are its first bytes, and what is left over the rest. -/
theorem splitBlocks_bytes (d : List Byte) :
    blocksBytes (splitBlocks d).1 = d.take (8 * (d.length / 8)) ∧ (splitBlocks d).2 = d.drop (8 * (d.length / 8)) := by
  obtain ⟨hjoin, hrest⟩ := splitBlocks_join d
  have hlen : (blocksBytes (splitBlocks d).1).length = 8 * (d.length / 8) := by
    have := congrArg List.length hjoin
    rw [List.length_append] at this
    omega
  exact List.append_inj (hjoin.trans (List.take_append_drop _ d).symm) (by rw [hlen, List.length_take]; omega)

/-- Settles O55: the whole blocks stay as they are under `pad`, its tail is `padMsg_tail`, and the scan starts past no zeros. -/
theorem blockCodecIsTheMessageCodec : Obligations.BlockCodecIsTheMessageCodec := by
  refine ⟨fun d t ht => ?_, fun ps => unpadBlocks_of_zeros ps.reverse 0 _ (by simp)⟩
  obtain ⟨hjoin, hlen⟩ := splitBlocks_join d
  obtain ⟨hwhole, hrest⟩ := splitBlocks_bytes d
  rw [← hrest, ← hlen] at ht
  refine ⟨?_, hwhole⟩
  have htail := padMsg_tail (hlen ▸ Nat.mod_lt _ (by decide)) ht
  have hpad := padMsg_append (splitBlocks d).1 (splitBlocks d).2
  rw [hjoin] at hpad
  rw [hpad, htail, hlen, blocksBytes_append, blocksBytes_cons, blocksBytes_nil, List.append_nil]

end Sys2Proof.Machine
end

section
/-! PROOFS. The counts at which the thresholds of the usage table act (44_usage.md R211, R215, R218). -/

namespace Sys2Proof.Machine

/-- R215: the START cycle of an ENC whose charge would pass the ceiling finishes E_EXHAUSTED, whatever the host does in it. -/
theorem step_exhausted {s : State} (hr : (nextInput s).rst = false) (hstart : s.st = .start)
    (hd : decodeCmd s.lCmd = .ok .enc) (hkey : s.keyvalid = true)
    (hover : s.params.ceilBytes < (usageAt s s.lKeyid).toNat + Config.chargeBytes) :
    ∃ u : State, SameEngine s u ∧ step s = .next (finish .eExhausted u) := by
  obtain ⟨u, hu, -, -, -, hstep⟩ := step_busy hr (by simp [hstart])
  have hcase : EngineCase u (finish .eExhausted u) :=
    .exhausted (by rw [hu.lCmd, hd]) (by simp [hu.st, hstart]) (by rw [hu.keyvalid, hkey])
      (by rwa [usageAt, hu.params, hu.usageT, hu.lKeyid])
  exact ⟨u, hu, hstep.trans hcase.engineStep_eq⟩

/-- R218: the charge that follows `n` earlier ones stays under the default ceiling exactly when `n < 2560`. -/
theorem defaultCeiling_admits_iff (n : Nat) : 8 * n + 8 ≤ Config.Params.default.ceilBytes ↔ n < 2560 := by
  show 8 * n + 8 ≤ 20480 ↔ n < 2560
  omega

/-- R218: the charge that follows `n` earlier ones passes the default soft threshold exactly when `1280 ≤ n`. -/
theorem defaultWarn_passed_iff (n : Nat) : Config.Params.default.warnBytes < 8 * n + 8 ↔ ¬n < 1280 := by
  show 10240 < 8 * n + 8 ↔ ¬n < 1280
  omega

/-- Settles O42: below the ceiling the run of an ENC that charged its counter, at it the refusal of the START cycle. -/
theorem usageThresholdsByCount : Obligations.UsageThresholdsByCount := by
  intro s n hi hparams hstart hd hkey hr hcount
  refine ⟨fun hn => ?_, fun hn => ?_⟩
  · have hroom : (s.usageT.getD s.lKeyid.toNat 0).toNat + 8 ≤ s.params.ceilBytes := by
      rw [hcount, hparams]
      exact (defaultCeiling_admits_iff n).2 hn
    obtain ⟨-, t, ht, -, -, -, hresult, -, -, -, -, -, husage⟩ := encRunComputesE s hi hstart hd hkey hroom hr
    refine ⟨t, ht, ?_, ?_⟩
    · calc (t.usageT.getD s.lKeyid.toNat 0).toNat
          = (s.usageT.getD s.lKeyid.toNat 0).toNat + 8 := by rw [husage]; exact hi.usageAt_charged hroom
        _ = 8 * (n + 1) := by rw [hcount, Nat.mul_succ]
    · simp only [hresult, hcount, hparams, defaultWarn_passed_iff, ite_not]
  · have hover : s.params.ceilBytes < (usageAt s s.lKeyid).toNat + Config.chargeBytes := by
      rw [usageAt, hcount, hparams]
      exact Nat.lt_of_not_le fun hroom => Nat.ne_of_lt ((defaultCeiling_admits_iff n).1 hroom) hn
    obtain ⟨u, hu, hstep⟩ := step_exhausted (noReset_next hr) hstart hd hkey hover
    exact ⟨_, runCycles_succ hstep 0, rfl, rfl, rfl, hu.usageT, hu.doutHi, hu.doutLo, hu.uplen, hu.r, hu.nHi, hu.nLo, hu.k,
      hu.keyvalid⟩

end Sys2Proof.Machine
end

section
/-! PROOFS. Bus writes and reads word by word (45_bus_control.md R231, R232), the acceptance and the drop of a command (R233, R234,
R236), and NOP (R235). -/

namespace Sys2Proof.Machine

/-- Settles O21: a finish with OK. -/
theorem nopFinishesOk : Obligations.NopFinishesOk :=
  fun s => congrArg Host.Outcome.next (finish_of_ne_warn (by decide) s)

/-- Settles O15: a CMD write to an idle machine is an acceptance. -/
theorem acceptanceLatchesOperands : Obligations.AcceptanceLatchesOperands :=
  fun _ v hst => congrArg Host.Outcome.next (cmdWrite_idle hst v)

/-- R234: a CMD write to a busy machine. -/
theorem exec_buswr_cmd_busy {s : State} (hbusy : s.st ≠ .idle) (v : Word) :
    exec (.buswr 0 v) s = .next { s with ovr := true } :=
  congrArg Host.Outcome.next (cmdWrite_busy hbusy v)

/-- W1C in the spec's words: a written 1 clears the flag (10_state.md R34). -/
theorem and_not_eq_ite (flag written : Bool) : (flag && !written) = if written then false else flag := by
  cases written <;> simp

/-- A write to STATUS in the spec's words (R231). -/
theorem statusWrite_eq (v : Word) (s : State) :
    statusWrite v s =
      { s with
        done := if v.getLsbD 1 then false else s.done
        warn := if v.getLsbD 16 then false else s.warn
        ovr := if v.getLsbD 17 then false else s.ovr } := by
  simp only [statusWrite, and_not_eq_ite]

/-- CFG keeps the parity of the written word (10_state.md R42). -/
theorem cfgField_eq_ofNat (v : Word) : cfgField v = BitVec.ofNat 32 (v.toNat % 2) := by
  apply BitVec.eq_of_toNat_eq
  rw [cfgField, BitVec.toNat_setWidth, BitVec.extractLsb'_toNat]
  simp

/-- The words no write reaches are RO registers or reserved (20_memory.md R65). -/
theorem writeWord_of_not_writable {addr : BitVec 6} (h : addr.toNat ∉ [0, 1, 2, 3, 4, 5, 8, 9, 12]) (v : Word) (s : State) :
    writeWord addr v s = s := by
  unfold writeWord
  cases hreg : regAt addr with
  | none => rfl
  | some reg =>
    obtain rfl := eq_addr_of_regAt hreg
    cases reg with
    | doutHi | doutLo | usage | uplen | id | kx => rfl
    | cmd | status | keyLo | keyHi | dinHi | dinLo | rkey | keyId | cfg => exact absurd (by decide) h

/-- Settles O12: CMD accepts or drops, STATUS and CFG keep the bits the rule names, the other registers are `writeReg`'s own lines. -/
theorem buswrWritesTheNamedRegister : Obligations.BuswrWritesTheNamedRegister := by
  intro s v
  refine ⟨fun hst => ⟨_, acceptanceLatchesOperands s v hst, rfl, rfl, rfl⟩, fun hbusy => exec_buswr_cmd_busy hbusy v,
    congrArg Host.Outcome.next (statusWrite_eq v s), rfl, rfl, rfl, rfl, rfl, rfl, ⟨_, rfl, ?_, ?_⟩,
    fun addr haddr => congrArg Host.Outcome.next (writeWord_of_not_writable haddr v s)⟩
  · rw [← cfgField_eq_ofNat]
    rfl
  · show ((cfgField v).getLsbD 0 && s.done) = _
    rw [cfgField, BitVec.getLsbD_setWidth, BitVec.getLsbD_extractLsb']
    simp [-BitVec.getLsbD_eq_getElem]

/-- A flag's bit as a choice between two words. -/
theorem flagBit_eq_ite (b : Bool) : flagBit b = if b then 1#32 else 0#32 := by
  cases b <;> rfl

/-- STATUS as R232 writes it. -/
theorem statusWord_eq (s : State) :
    statusWord s =
      (if s.ovr then 1#32 else 0#32) <<< (17 : Nat) ||| (if s.warn then 1#32 else 0#32) <<< (16 : Nat) |||
        s.r.setWidth 32 <<< (8 : Nat) ||| s.result.code.setWidth 32 <<< (4 : Nat) |||
        (if s.keyvalid then 1#32 else 0#32) <<< (2 : Nat) ||| (if s.done then 1#32 else 0#32) <<< (1 : Nat) |||
        (if s.st = .idle then 0#32 else 1#32) := by
  have hbusy : flagBit s.busy = if s.st = .idle then 0#32 else 1#32 := by
    rw [flagBit_eq_ite, State.busy]
    by_cases hst : s.st = .idle <;> simp [hst]
  rw [statusWord, hbusy]
  simp only [flagBit_eq_ite]

/-- The reserved words (20_memory.md R64). -/
theorem regAt_reserved {addr : BitVec 6} (h : addr.toNat = 14 ∨ addr.toNat = 15 ∨ 24 ≤ addr.toNat) : regAt addr = none := by
  revert addr
  decide

/-- The word index of a key word (20_memory.md R64). -/
theorem eq_kx_addr {addr : BitVec 6} {i : Fin 8} (h : addr.toNat = 16 + i.val) : addr = (Reg.kx i).addr := by
  revert addr i
  decide

/-- Settles O13: each word index is a register's own or reserved, and STATUS is put together as the rule says. -/
theorem busrdReturnsTheNamedRegister : Obligations.BusrdReturnsTheNamedRegister := by
  intro s addr
  refine ⟨readWord s addr, rfl, ?_, ?status, ?_, ?_, ?_, ?_, ?_, ?_, ?_, ?_, ?_, ?_, ?_, ?_, fun i hi => ?keyWord,
    fun hreserved => ?reserved⟩
  case status =>
    rintro rfl
    exact statusWord_eq s
  case keyWord =>
    obtain rfl := eq_kx_addr hi
    rw [readWord, regAt_addr]
    rfl
  case reserved => rw [readWord, regAt_reserved hreserved]
  all_goals
    rintro rfl
    rfl

/-- Settles O49: an idle machine accepts the word; a busy one sets OVR, which the engine's step keeps. -/
theorem noCommandIsLostSilently : Obligations.NoCommandIsLostSilently := by
  intro s t p hrst hsel hwe haddr h
  rcases clockCycle_cases h with ⟨hreset, -⟩ | ⟨-, hst, rfl⟩ | ⟨-, hbusy, hc⟩
  · simp [hrst] at hreset
  · have haccept : afterHost p s = acceptCmd p.wdata (clearRdata s) := by
      rw [afterHost, if_pos hsel, if_pos hwe, haddr]
      exact cmdWrite_idle (s := clearRdata s) hst p.wdata
    rw [haccept]
    exact .inl ⟨hst, rfl, rfl, rfl⟩
  · have hdrop : afterHost p s = { clearRdata s with ovr := true } := by
      rw [afterHost, if_pos hsel, if_pos hwe, haddr]
      exact cmdWrite_busy (s := clearRdata s) hbusy p.wdata
    rw [hdrop] at hc
    exact .inr ⟨hbusy, hc.keeps.ovr, hc.keeps.lCmd⟩

/-- A ROUNDS step neither reads nor writes OVR. -/
theorem roundsStep_withOvr (rk : Word) (code : ResultCode) (s : State) (b : Bool) :
    roundsStep rk code { s with ovr := b } = { roundsStep rk code s with ovr := b } := by
  by_cases hr : s.r.toNat < 31
  · rw [roundsStep_middle hr, roundsStep_middle (s := { s with ovr := b }) hr]
  · rw [roundsStep_last hr, roundsStep_last (s := { s with ovr := b }) hr]
    rfl

/-- An engine step neither reads nor writes OVR. -/
theorem EngineCase.withOvr {s t : State} (h : EngineCase s t) (b : Bool) :
    EngineCase { s with ovr := b } { t with ovr := b } := by
  cases h with
  | illegal h => exact .illegal h
  | nop h => exact .nop h
  | keyload h => exact .keyload h
  | keyloadLength klen h h7 => exact .keyloadLength klen h h7
  | pad n h => exact .pad n h
  | unpad h => exact .unpad h
  | xformT h => exact .xformT h
  | roundG h => exact .roundG h
  | noKey h hst hk => exact .noKey h hst hk
  | exhausted h hst hk hc => exact .exhausted h hst hk hc
  | encBegin h hst hk hc => exact .encBegin h hst hk hc
  | decBegin h hst hk => exact .decBegin h hst hk
  | encRound h hst =>
    rw [← roundsStep_withOvr]
    exact .encRound (s := { s with ovr := b }) h hst
  | decRound h hst =>
    rw [← roundsStep_withOvr]
    exact .decRound (s := { s with ovr := b }) h hst

/-- Settles O16: the transaction sets OVR alone, and the engine's step of either cycle neither reads nor writes it. -/
theorem commandWriteWhileBusyIsDropped : Obligations.CommandWriteWhileBusyIsDropped := by
  intro s rest v hbusy hin
  obtain ⟨t, ht, hc⟩ := engineStep_case { s with inputs := rest, rdata := none }
  have hdrop : afterHost (PortIn.write 0 v) { s with inputs := rest } =
      { s with inputs := rest, rdata := none, ovr := true } :=
    cmdWrite_busy (s := { s with inputs := rest, rdata := none }) hbusy v
  refine ⟨exec_buswr_cmd_busy hbusy v, t, ?_, ?_⟩
  · rw [step_busy_eq_engineStep (s := { s with inputs := PortIn.idle :: rest }) rfl rfl hbusy, afterHost_unselected rfl]
    exact ht
  · rw [step_busy_eq_engineStep hin rfl hbusy, hdrop]
    exact (hc.withOvr true).engineStep_eq

end Sys2Proof.Machine
end

section
/-! PROOFS. The commands of the host's message procedures (45_bus_control.md R240, R241), each written to an idle machine and waited for:
what it answers, and that the key, the identifier and the counters stay but for the charge of an ENC. -/

namespace Sys2Proof.Machine

/-- `t` is idle and holds the key, the identifier, the counters, the ROM and the parameters of `s`: what every command of a message
procedure but KEYLOAD and an ENC that is charged keeps. -/
structure IdleKeeping (s t : State) : Prop where
  st : t.st = .idle
  k : t.k = s.k
  keyvalid : t.keyvalid = s.keyvalid
  keyId : t.keyId = s.keyId
  usageT : t.usageT = s.usageT
  sbox : t.sbox = s.sbox
  params : t.params = s.params

theorem IdleKeeping.refl {s : State} (h : s.st = .idle) : IdleKeeping s s := ⟨h, rfl, rfl, rfl, rfl, rfl, rfl⟩

theorem IdleKeeping.trans {s t u : State} (h : IdleKeeping s t) (h' : IdleKeeping t u) : IdleKeeping s u :=
  ⟨h'.st, h'.k.trans h.k, h'.keyvalid.trans h.keyvalid, h'.keyId.trans h.keyId, h'.usageT.trans h.usageT,
    h'.sbox.trans h.sbox, h'.params.trans h.params⟩

/-- The read port is none of what is kept. -/
theorem IdleKeeping.withRdata {s t : State} (h : IdleKeeping s t) (w : Option Word) :
    IdleKeeping s { t with rdata := w } :=
  ⟨h.st, h.k, h.keyvalid, h.keyId, h.usageT, h.sbox, h.params⟩

theorem ldblk_keeping {s : State} (h : s.st = .idle) (p : Word × Word) :
    IdleKeeping s (ldblk p s) ∧ ((ldblk p s).dinHi, (ldblk p s).dinLo) = p := by
  rw [ldblk_idle h]
  exact ⟨⟨h, rfl, rfl, rfl, rfl, rfl, rfl⟩, rfl⟩

theorem stblk_keeping {s : State} (h : s.st = .idle) :
    (stblk s).1 = (s.doutHi, s.doutLo) ∧ IdleKeeping s (stblk s).2 := by
  rw [stblk_idle h]
  exact ⟨rfl, (IdleKeeping.refl h).withRdata _⟩

theorem mvblk_keeping {s : State} (h : s.st = .idle) :
    IdleKeeping s (mvblk s) ∧ ((mvblk s).dinHi, (mvblk s).dinLo) = (s.doutHi, s.doutLo) := by
  rw [mvblk_idle h]
  exact ⟨⟨h, rfl, rfl, rfl, rfl, rfl, rfl⟩, rfl⟩

/-- The machine at the first poll after the host wrote `v` to CMD: the operands latched and STATUS on the read port. -/
def firstPoll (v : Word) (s : State) : State :=
  { acceptCmd v (clearRdata s) with rdata := some (readWord (acceptCmd v (clearRdata s)) 1) }

/-- A command whose START step finishes it. -/
theorem hostCmd_finishes {s b : State} (h : s.st = .idle) (v : Word) (hc : EngineCase (firstPoll v s) b) (hb : b.st = .idle) :
    hostCmd v s = some (readWord b 1, { b with rdata := some (readWord b 1) }) :=
  hostCmd_one h v hc.engineStep_eq hb

/-- The polls from the first round to the end of an ENC or DEC: they see what the last round leaves (R168). -/
theorem hostWait_beginRounds {ks : Nat → Word} {b : State} (hk : RoundKeysOf ks b) :
    ∃ t : State, hostWait 33 (beginRounds b) = some (readWord t 1, { t with rdata := some (readWord t 1) }) ∧
      RoundsDone ks b t ∧ IdleKeeping b t := by
  obtain ⟨u, hu, hround, hid⟩ := hostWait_rounds hk 31 0 (beginRounds b) rfl (beginRounds_inRounds ks b)
  have hbusy : u.st ≠ .idle := by simp [hround.st]
  -- The last poll is the step of a host whose next input is a read of STATUS.
  have hread : InRounds ks b 31 { u with inputs := PortIn.read 1 :: u.inputs } := hround.sameEngine (by constructor <;> rfl)
  have hstep : step { u with inputs := PortIn.read 1 :: u.inputs } = engineStep { u with rdata := some (readWord u 1) } :=
    step_busy_eq_engineStep (p := PortIn.read 1) (rest := u.inputs) rfl rfl hbusy
  obtain ⟨t, ht, hend⟩ := hread.step_last hk rfl
  rw [hstep] at ht
  have hkeeps := (engineStep_cases ht).keeps
  refine ⟨t, ?_, hend, hend.st, hend.k, hend.keyvalid, hkeeps.keyId.trans hid, hend.usageT, hkeeps.sbox.trans hround.sbox,
    hkeeps.params.trans hround.params⟩
  rw [hu, hostWait_busy hbusy ht, hostWait_idle hend.st]

/-- An ENC or DEC whose START step begins the rounds of `b`. -/
theorem hostCmd_rounds {ks : Nat → Word} {s b : State} (h : s.st = .idle) (v : Word)
    (hc : EngineCase (firstPoll v s) (beginRounds b)) (hk : RoundKeysOf ks b) :
    ∃ w t, hostCmd v s = some (w, t) ∧
      statusResult w = (if decodeCmd b.lCmd = .ok .enc then encCode b else .ok).code ∧
      (t.doutHi, t.doutLo) = crypt b.sbox ks (b.nHi, b.nLo) ∧ IdleKeeping b t := by
  obtain ⟨t, ht, hend, hkeep⟩ := hostWait_beginRounds hk
  have hpoll : hostCmd v s = hostWait 33 (beginRounds b) := by
    rw [hostCmd, runStmts_cmd h, pollLimit, hostWait_busy (by simp) hc.engineStep_eq]
  exact ⟨_, _, hpoll.trans ht, (status_busy_result t).2.trans (congrArg _ hend.result), hend.dout, hkeep.withRdata _⟩

/-- DEC of the block in DIN (R172). -/
theorem hostCmd_dec {s : State} (h : s.st = .idle) (hkey : s.keyvalid = true) :
    ∃ w t, hostCmd 0x3 s = some (w, t) ∧ (t.doutHi, t.doutLo) = decPair s.sbox s.k (s.dinHi, s.dinLo) ∧
      IdleKeeping s t := by
  have hd : decodeCmd (firstPoll 0x3 s).lCmd = .ok .dec := show decodeCmd 0x3 = .ok .dec by decide
  obtain ⟨w, t, ht, -, hdout, hkeep⟩ := hostCmd_rounds (ks := decKey s.k) h 0x3 (.decBegin hd (by simp [firstPoll]) hkey)
    (.inr ⟨hd, rfl⟩)
  exact ⟨w, t, ht, hdout, hkeep.st, hkeep.k, hkeep.keyvalid, hkeep.keyId, hkeep.usageT, hkeep.sbox, hkeep.params⟩

/-- The word of `cmd PAD padn=n` is that command's (30_encoding.md R98). -/
theorem decodeCmd_padWord {n : Nat} (hn : n < 8) : decodeCmd (padWord n) = .ok (.pad n) := by
  interval_cases n <;> decide

/-- The word of `cmd KEYLOAD klen=n` is that command's (30_encoding.md R98). -/
theorem decodeCmd_keyloadWord {n : Nat} (hn : n < 16) : decodeCmd (keyloadWord n) = .ok (.keyload n) := by
  interval_cases n <;> decide

/-- PAD of the block in DIN (43_padding.md R196). -/
theorem hostCmd_pad {s : State} (h : s.st = .idle) {n : Nat} (hn : n < 8) :
    ∃ w t, hostCmd (padWord n) s = some (w, t) ∧
      (t.doutHi, t.doutLo) = (blockHi (padblk (s.dinHi ++ s.dinLo) n), blockLo (padblk (s.dinHi ++ s.dinLo) n)) ∧
      IdleKeeping s t :=
  ⟨_, _, hostCmd_finishes h (padWord n) (.pad n (decodeCmd_padWord hn)) rfl, rfl, rfl, rfl, rfl, rfl, rfl, rfl, rfl⟩

/-- UNPAD of the block in DIN (43_padding.md R197). -/
theorem hostCmd_unpad {s : State} (h : s.st = .idle) :
    ∃ w t, hostCmd 0x5 s = some (w, t) ∧ statusResult w = (unpadblk (s.dinHi ++ s.dinLo)).1.code ∧
      t.uplen.toNat = (unpadblk (s.dinHi ++ s.dinLo)).2 ∧ IdleKeeping s t := by
  have hd : decodeCmd (firstPoll 0x5 s).lCmd = .ok .unpad := show decodeCmd 0x5 = .ok .unpad by decide
  refine ⟨_, _, hostCmd_finishes h 0x5 (.unpad hd) rfl, (status_busy_result _).2, ?_, rfl, rfl, rfl, rfl, rfl, rfl, rfl⟩
  have hword : (unpadblk (s.dinHi ++ s.dinLo)).2 < 2 ^ 32 := (unpadblk_length_le _).trans_lt (by decide)
  exact (BitVec.toNat_ofNat _ _).trans (Nat.mod_eq_of_lt hword)

end Sys2Proof.Machine
end

section
/-! PROOFS. `decrypt_message` (45_bus_control.md R241): DEC block by block, then the unpad scan from the last block. -/

namespace Sys2Proof.Machine

section Decrypt

variable {s₀ s : State}

/-- R241's first loop: `D` of every block in order. -/
theorem decryptBlocks_eq (hkey : s₀.keyvalid = true) (h : IdleKeeping s₀ s) (ps out : List (Word × Word)) :
    ∃ t, decryptBlocks ps out s = (.ok (out ++ ps.map (decPair s₀.sbox s₀.k)), t) ∧ IdleKeeping s₀ t := by
  induction ps generalizing out s with
  | nil => exact ⟨s, by simp [decryptBlocks], h⟩
  | cons p ps ih =>
    obtain ⟨hload, hdin⟩ := ldblk_keeping h.st p
    have hload := h.trans hload
    obtain ⟨w, t, ht, hdout, hdec⟩ := hostCmd_dec hload.st (hload.keyvalid.trans hkey)
    obtain ⟨hblock, hread⟩ := stblk_keeping hdec.st
    rw [hdout, hdin, hload.sbox, hload.k] at hblock
    obtain ⟨u, hu, hkeep⟩ := ih ((hload.trans hdec).trans hread) (out ++ [decPair s₀.sbox s₀.k p])
    refine ⟨u, ?_, hkeep⟩
    rw [decryptBlocks, ht]
    simp only [hblock, hu, List.map_cons, List.append_assoc, List.singleton_append]

/-- UNPAD has no other code than these three (43_padding.md R194). -/
theorem unpadblk_code (b : Block) :
    (unpadblk b).1 = .padAllzero ∨ (unpadblk b).1 = .ok ∨ (unpadblk b).1 = .eBadpad := by
  unfold unpadblk
  split
  · exact .inl rfl
  · split
    · exact .inr (.inl rfl)
    · exact .inr (.inr rfl)

/-- R241's second loop is the block-level scan of 43_padding.md R195. -/
theorem unpadScan_eq (h : IdleKeeping s₀ s) (whole : List Byte) (last : List (Word × Word)) :
    ∃ t, unpadScan whole last s = (.ok (unpadBlocks whole last), t) ∧ IdleKeeping s₀ t := by
  induction last generalizing s with
  | nil => exact ⟨s, rfl, h⟩
  | cons p before ih =>
    obtain ⟨hload, hdin⟩ := ldblk_keeping h.st p
    obtain ⟨w, t, ht, hcode, hlen, hunpad⟩ := hostCmd_unpad hload.st
    have hkeep := (h.trans hload).trans hunpad
    have hhi : (ldblk p s).dinHi = p.1 := congrArg Prod.fst hdin
    have hlo : (ldblk p s).dinLo = p.2 := congrArg Prod.snd hdin
    have hthree := unpadblk_code (p.1 ++ p.2)
    rw [hhi, hlo] at hcode hlen
    rcases hanswer : unpadblk (p.1 ++ p.2) with ⟨code, len⟩
    rw [hanswer] at hcode hlen hthree
    rw [unpadScan, ht, unpadBlocks, hanswer]
    obtain rfl | rfl | rfl : code = .padAllzero ∨ code = .ok ∨ code = .eBadpad := hthree
    · obtain ⟨u, hu, hscan⟩ := ih hkeep
      exact ⟨u, by simp [hcode, ResultCode.code_eq_iff, hu], hscan⟩
    · refine ⟨_, ?_, hkeep.withRdata (some t.uplen)⟩
      simp only [hcode, hostRd_idle hunpad.st, readReg, hlen, if_true]
    · exact ⟨t, by simp [hcode, ResultCode.code_eq_iff], hkeep⟩

/-- R241 past its check for a partial block: the scan of the decrypted blocks, which is `unpad` of their bytes (43_padding.md R195). -/
theorem decryptMessage_eq {mode : DecTail} {c : List Byte} (hkey : s₀.keyvalid = true) (hst : s₀.st = .idle)
    (hmode : ¬((splitBlocks c).2 ≠ [] ∧ mode = .strict)) :
    ∃ t, decryptMessage mode c s₀ =
        (.ok ((unpadMsg (ecbDecrypt s₀.sbox s₀.k c)).1 ++ (splitBlocks c).2, (unpadMsg (ecbDecrypt s₀.sbox s₀.k c)).2), t) ∧
      IdleKeeping s₀ t := by
  obtain ⟨t, ht, hdec⟩ := decryptBlocks_eq hkey (.refl hst) (splitBlocks c).1 []
  obtain ⟨u, hu, hscan⟩ := unpadScan_eq hdec (ecbDecrypt s₀.sbox s₀.k c) ((splitBlocks c).1.map (decPair s₀.sbox s₀.k)).reverse
  refine ⟨u, ?_, hscan⟩
  rw [ecbDecrypt, blockCodecIsTheMessageCodec.2] at hu
  rw [decryptMessage, if_neg hmode, ht]
  simp only [List.nil_append, hu, ecbDecrypt]

end Decrypt

/-- Settles O59: a partial block fails the strict check; past it, R241's two loops give `unpad` of `D` block by block. -/
theorem decryptMessageIsUnpadOfEcb : Obligations.DecryptMessageIsUnpadOfEcb := by
  intro s c mode hst hkey
  have hpartial : (splitBlocks c).2 ≠ [] ↔ c.length % 8 ≠ 0 := by
    rw [← (splitBlocks_join c).2, Ne, Ne, List.length_eq_zero_iff]
  refine ⟨fun hlen hstrict => if_pos ⟨hpartial.2 hlen, hstrict⟩, fun hmode => ?_⟩
  have hpass : ¬((splitBlocks c).2 ≠ [] ∧ mode = .strict) := by
    rw [hpartial]
    rintro ⟨hlen, rfl⟩
    exact hmode.elim hlen (by simp)
  obtain ⟨t, ht, hkeep⟩ := decryptMessage_eq hkey hst hpass
  rw [(splitBlocks_bytes c).2] at ht
  exact ⟨t, hkeep.usageT, hkeep.k, ht⟩

end Sys2Proof.Machine
end

section
/-! PROOFS. `encrypt_message` (45_bus_control.md R240): an ENC a block, each charged to the selected identifier, until
the blocks end or the ceiling refuses one. -/

namespace Sys2Proof.Machine

/-- `s` with the counter of the selected identifier at `total` (44_usage.md R213). -/
def chargedTo (total : Nat) (s : State) : State := setUsage s.keyId (BitVec.ofNat 32 total) s

/-- A counter charged further reads as charged once, to the later total. -/
theorem IdleKeeping.chargedTo_trans {s t u : State} {n m : Nat} (h : IdleKeeping (chargedTo n s) t)
    (h' : IdleKeeping (chargedTo m t) u) : IdleKeeping (chargedTo m s) u := by
  refine ⟨h'.st, h'.k.trans h.k, h'.keyvalid.trans h.keyvalid, h'.keyId.trans h.keyId, ?_, h'.sbox.trans h.sbox,
    h'.params.trans h.params⟩
  rw [h'.usageT]
  show t.usageT.set t.keyId.toNat _ = s.usageT.set s.keyId.toNat _
  rw [h.usageT, h.keyId]
  exact List.set_set ..

/-- The selected identifier has a counter (10_state.md R46). -/
theorem State.Inv.keyId_mem {s : State} (hi : s.Inv) : s.keyId.toNat < s.usageT.length := by
  rw [hi.usage_length]
  exact hi.keyId_lt

/-- The counter at the total it already holds. -/
theorem State.Inv.chargedTo_self {s : State} (hi : s.Inv) : chargedTo (usageAt s s.keyId).toNat s = s := by
  have hmem := hi.keyId_mem
  rw [chargedTo, setUsage, BitVec.ofNat_toNat, usageAt, List.getD_eq_getElem _ _ hmem]
  simp

/-- The selected counter stands under the ceiling (10_state.md R51). -/
theorem State.Inv.usageAt_keyId_le {s : State} (hi : s.Inv) : (usageAt s s.keyId).toNat ≤ s.params.ceilBytes := by
  rw [usageAt, List.getD_eq_getElem _ _ hi.keyId_mem]
  exact (hi.usage_legal _ (List.getElem_mem _)).2

/-- The selected counter reads as the total it was charged to, which fits its word. -/
theorem State.Inv.usageAt_chargedTo {s t : State} (hi : s.Inv) {n : Nat} (hn : n ≤ s.params.ceilBytes)
    (h : t.usageT = (chargedTo n s).usageT) : (usageAt t s.keyId).toNat = n := by
  have hword := s.params.ceil_lt
  have hread : usageAt t s.keyId = BitVec.ofNat 32 n := by
    rw [usageAt, h]
    exact usageAt_setUsage hi.keyId_mem _
  rw [hread, BitVec.toNat_ofNat, Nat.mod_eq_of_lt (by omega)]

/-- How a message that does not fit ends: the counter under the ceiling with no room for a block more (44_usage.md R215). -/
def Exhausted (s₀ t : State) : Prop :=
  ∃ n ≤ s₀.params.ceilBytes, s₀.params.ceilBytes < n + Config.chargeBytes ∧ IdleKeeping (chargedTo n s₀) t

/-- The last block of a message: its tail, the marker and zeros (43_padding.md R195). -/
def lastBlock (rest : List Byte) : Word × Word :=
  (blockHi (padblk ((tailBlock rest).1 ++ (tailBlock rest).2) rest.length),
    blockLo (padblk ((tailBlock rest).1 ++ (tailBlock rest).2) rest.length))

/-- R240's last block: PAD and `mvblk` put it in DIN, and it is encrypted like the others. -/
theorem encryptTail_eq {s₀ s : State} (h : IdleKeeping s₀ s) {rest : List Byte} (hlen : rest.length < 8) :
    ∃ t, encryptTail rest s = encryptDin t ∧ (t.dinHi, t.dinLo) = lastBlock rest ∧ IdleKeeping s₀ t := by
  obtain ⟨hload, hdin⟩ := ldblk_keeping h.st (tailBlock rest)
  obtain ⟨w, t, ht, hdout, hpad⟩ := hostCmd_pad hload.st hlen
  obtain ⟨hmove, hmoved⟩ := mvblk_keeping hpad.st
  have hhi : (ldblk (tailBlock rest) s).dinHi = (tailBlock rest).1 := congrArg Prod.fst hdin
  have hlo : (ldblk (tailBlock rest) s).dinLo = (tailBlock rest).2 := congrArg Prod.snd hdin
  rw [hhi, hlo] at hdout
  exact ⟨mvblk t, by rw [encryptTail, ht], hmoved.trans hdout, ((h.trans hload).trans hpad).trans hmove⟩

section Encrypt

variable {s₀ s : State} {n : Nat} (hi : s₀.Inv) (hkey : s₀.keyvalid = true) (h : IdleKeeping (chargedTo n s₀) s)

include hi h

/-- The counter of the selected identifier, between two commands. -/
theorem usageAt_keyId (hn : n ≤ s₀.params.ceilBytes) : (usageAt s s.keyId).toNat = n := by
  have hread : (usageAt s s₀.keyId).toNat = n := hi.usageAt_chargedTo hn h.usageT
  rwa [h.keyId]

/-- The identifier that a command latches is the selected one. -/
theorem firstPoll_lKeyid (v : Word) : (firstPoll v s).lKeyid = s.keyId := by
  have hlt : s.keyId.toNat < 2 ^ s.params.keyIdBits := by
    rw [h.params, h.keyId]
    exact hi.keyId_lt
  exact keyIdField_of_lt hlt

/-- The code of an ENC by its charged counter (44_usage.md R214). -/
theorem encCode_charged {v : Word} (hroom : n + Config.chargeBytes ≤ s₀.params.ceilBytes) :
    encCode (chargedTo (n + Config.chargeBytes) (firstPoll v s)) =
      if s₀.params.warnBytes < n + Config.chargeBytes then .warn else .ok := by
  have hlatch : (chargedTo (n + Config.chargeBytes) (firstPoll v s)).lKeyid = s.keyId := firstPoll_lKeyid hi h v
  have hparams : (chargedTo (n + Config.chargeBytes) (firstPoll v s)).params = s₀.params := h.params
  have hkeep : IdleKeeping (chargedTo (n + Config.chargeBytes) s₀) (chargedTo (n + Config.chargeBytes) s) :=
    h.chargedTo_trans (.refl h.st)
  have htotal : (usageAt (chargedTo (n + Config.chargeBytes) (firstPoll v s)) s.keyId).toNat = n + Config.chargeBytes :=
    show (usageAt (chargedTo (n + Config.chargeBytes) s) s.keyId).toNat = n + Config.chargeBytes from
      usageAt_keyId hi hkeep hroom
  rw [encCode_eq, hlatch, hparams, htotal]

include hkey

/-- ENC of the block in DIN with room for its charge (42_feistel.md R171, 44_usage.md R213, R214). -/
theorem hostCmd_enc (hroom : n + Config.chargeBytes ≤ s₀.params.ceilBytes) :
    ∃ w t, hostCmd 0x2 s = some (w, t) ∧
      statusResult w = (if s₀.params.warnBytes < n + Config.chargeBytes then .warn else .ok : ResultCode).code ∧
      (t.doutHi, t.doutLo) = encPair s₀.sbox s₀.k (s.dinHi, s.dinLo) ∧
      IdleKeeping (chargedTo (n + Config.chargeBytes) s₀) t := by
  have hd : decodeCmd (firstPoll 0x2 s).lCmd = .ok .enc := show decodeCmd 0x2 = .ok .enc by decide
  have hlatch := firstPoll_lKeyid hi h 0x2
  have hbegin : EngineCase (firstPoll 0x2 s) (beginRounds (chargedTo (n + Config.chargeBytes) (firstPoll 0x2 s))) := by
    have hparams : (firstPoll 0x2 s).params = s₀.params := h.params
    have hcount : (usageAt (firstPoll 0x2 s) s.keyId).toNat = n := usageAt_keyId (s := s) hi h (by omega)
    have hc := EngineCase.encBegin hd (by simp [firstPoll]) (h.keyvalid.trans hkey)
    rw [hlatch, hcount, hparams] at hc
    exact hc hroom
  obtain ⟨w, t, ht, hcode, hdout, hb⟩ := hostCmd_rounds (ks := encKey s.k) h.st 0x2 hbegin (.inl ⟨hd, rfl⟩)
  have hkeep : IdleKeeping (chargedTo (n + Config.chargeBytes) s₀) t :=
    h.chargedTo_trans ⟨hb.st, hb.k, hb.keyvalid, hb.keyId, hb.usageT, hb.sbox, hb.params⟩
  refine ⟨w, t, ht, ?_, ?_, hkeep⟩
  · rw [hcode, if_pos (by exact hd), encCode_charged hi h hroom]
  · have hs : encPair s.sbox s.k = encPair s₀.sbox s₀.k := by rw [h.sbox, h.k]; rfl
    exact hdout.trans (congrFun hs _)

/-- ENC without room for its charge is refused (44_usage.md R215). -/
theorem hostCmd_enc_exhausted (hn : n ≤ s₀.params.ceilBytes) (hover : s₀.params.ceilBytes < n + Config.chargeBytes) :
    ∃ w t, hostCmd 0x2 s = some (w, t) ∧ statusResult w = ResultCode.eExhausted.code ∧
      IdleKeeping (chargedTo n s₀) t := by
  have hd : decodeCmd (firstPoll 0x2 s).lCmd = .ok .enc := show decodeCmd 0x2 = .ok .enc by decide
  have hc : EngineCase (firstPoll 0x2 s) (finish .eExhausted (firstPoll 0x2 s)) := by
    have hcount : (usageAt (firstPoll 0x2 s) s.keyId).toNat = n := usageAt_keyId (s := s) hi h hn
    have hparams : (firstPoll 0x2 s).params = s₀.params := h.params
    refine .exhausted hd (by simp [firstPoll]) (h.keyvalid.trans hkey) ?_
    rwa [firstPoll_lKeyid hi h, hcount, hparams]
  exact ⟨_, _, hostCmd_finishes h.st 0x2 hc rfl, (status_busy_result _).2, rfl, h.k, h.keyvalid, h.keyId, h.usageT, h.sbox,
    h.params⟩

/-- R240's step for the block in DIN: `E` of it, and whether the total after its charge exceeds the soft threshold. -/
theorem encryptDin_ok (hroom : n + Config.chargeBytes ≤ s₀.params.ceilBytes) :
    ∃ t, encryptDin s =
        (.ok (encPair s₀.sbox s₀.k (s.dinHi, s.dinLo), decide (s₀.params.warnBytes < n + Config.chargeBytes)), t) ∧
      IdleKeeping (chargedTo (n + Config.chargeBytes) s₀) t := by
  obtain ⟨w, t, ht, hcode, hdout, hkeep⟩ := hostCmd_enc hi hkey h hroom
  obtain ⟨hblock, hread⟩ := stblk_keeping hkeep.st
  refine ⟨_, ?_, hkeep.trans hread⟩
  rw [encryptDin, ht]
  simp only [hcode, ResultCode.code_eq_iff, hblock, hdout]
  by_cases hwarn : s₀.params.warnBytes < n + Config.chargeBytes <;> simp [hwarn]

/-- R240's step for a block the ceiling refuses. -/
theorem encryptDin_exhausted (hn : n ≤ s₀.params.ceilBytes) (hover : s₀.params.ceilBytes < n + Config.chargeBytes) :
    ∃ t, encryptDin s = (.error .keyExhausted, t) ∧ IdleKeeping (chargedTo n s₀) t := by
  obtain ⟨w, t, ht, hcode, hkeep⟩ := hostCmd_enc_exhausted hi hkey h hn hover
  exact ⟨t, by rw [encryptDin, ht]; exact if_pos hcode, hkeep⟩

/-- R240's loop with room for every block: `E` of each, the counter charged for each, and no WARN below the last total. -/
theorem encryptBlocks_ok (ps out : List (Word × Word)) (warned : Bool)
    (hroom : n + Config.chargeBytes * ps.length ≤ s₀.params.ceilBytes) :
    ∃ warned' t, encryptBlocks ps out warned s = (.ok (out ++ ps.map (encPair s₀.sbox s₀.k), warned'), t) ∧
      (warned' = true → warned = true ∨ s₀.params.warnBytes < n + Config.chargeBytes * ps.length) ∧
      IdleKeeping (chargedTo (n + Config.chargeBytes * ps.length) s₀) t := by
  induction ps generalizing n out warned s with
  | nil => exact ⟨warned, s, by simp [encryptBlocks], .inl, h⟩
  | cons p ps ih =>
    rw [List.length_cons, Nat.mul_succ, Nat.add_comm (_ * _), ← Nat.add_assoc] at hroom ⊢
    obtain ⟨hload, hdin⟩ := ldblk_keeping h.st p
    obtain ⟨t, ht, hkeep⟩ := encryptDin_ok hi hkey (h.trans hload) (by omega)
    obtain ⟨warned', u, hu, hwarn, hend⟩ := ih hkeep (out ++ [encPair s₀.sbox s₀.k p])
      (warned || decide (s₀.params.warnBytes < n + Config.chargeBytes)) hroom
    refine ⟨warned', u, ?_, fun h' => ?_, hend⟩
    · rw [encryptBlocks, ht, hdin]
      simp only [hu, List.map_cons, List.append_assoc, List.singleton_append]
    · rcases hwarn h' with hnow | hlater
      · rw [Bool.or_eq_true, decide_eq_true_eq] at hnow
        exact hnow.imp_right fun hthis => by omega
      · exact .inr hlater

/-- R240's loop without room for every block: the first block the ceiling refuses ends it. -/
theorem encryptBlocks_exhausted (ps out : List (Word × Word)) (warned : Bool) (hn : n ≤ s₀.params.ceilBytes)
    (hover : s₀.params.ceilBytes < n + Config.chargeBytes * ps.length) :
    ∃ t, encryptBlocks ps out warned s = (.error .keyExhausted, t) ∧ Exhausted s₀ t := by
  induction ps generalizing n out warned s with
  | nil => exact absurd hover (by simpa using hn)
  | cons p ps ih =>
    rw [List.length_cons, Nat.mul_succ, Nat.add_comm (_ * _), ← Nat.add_assoc] at hover
    obtain ⟨hload, hdin⟩ := ldblk_keeping h.st p
    by_cases hroom : n + Config.chargeBytes ≤ s₀.params.ceilBytes
    · obtain ⟨t, ht, hkeep⟩ := encryptDin_ok hi hkey (h.trans hload) hroom
      obtain ⟨u, hu, hend⟩ := ih hkeep _ _ hroom hover
      exact ⟨u, by rw [encryptBlocks, ht]; exact hu, hend⟩
    · obtain ⟨t, ht, hkeep⟩ := encryptDin_exhausted hi hkey (h.trans hload) hn (Nat.lt_of_not_le hroom)
      exact ⟨t, by rw [encryptBlocks, ht], n, hn, Nat.lt_of_not_le hroom, hkeep⟩

end Encrypt

end Sys2Proof.Machine
end

section
/-! PROOFS. The whole of `encrypt_message` (45_bus_control.md R240): KEYLOAD, the identifier, and the blocks of the padded message; and
the way back through `decrypt_message` (R243). -/

namespace Sys2Proof.Machine

/-- `encrypt_message` once the key is loaded and the identifier selected (45_bus_control.md R240). -/
def encryptLoaded (d : List Byte) (s₀ : State) : Except HostError (List Byte × Bool) × State :=
  match encryptBlocks (splitBlocks d).1 [] false s₀ with
  | (.error e, u) => (.error e, u)
  | (.ok (out, warned), u) =>
    match encryptTail (splitBlocks d).2 u with
    | (.error e, v) => (.error e, v)
    | (.ok (c, w), v) => (.ok (blocksBytes (out ++ [c]), warned || w), v)

/-- R240 past a KEYLOAD that finished OK. -/
theorem encryptMessage_eq_loaded {d key : List Byte} {klen : Nat} {id w : Word} {s t : State}
    (ht : hostCmd (keyloadWord klen) (ldkey key s) = some (w, t)) (hok : statusResult w = ResultCode.ok.code) :
    encryptMessage d key klen id s = encryptLoaded d (hostWr .keyId id t) := by
  have hlength : statusResult w ≠ ResultCode.eKeylen.code := by rw [hok]; decide
  rw [encryptMessage, ht]
  exact (if_neg hlength).trans rfl

/-- A padded message is its whole blocks and its last block (43_padding.md R195). -/
theorem padMsg_eq_blocks (d : List Byte) :
    padMsg d = blocksBytes ((splitBlocks d).1 ++ [lastBlock (splitBlocks d).2]) := by
  obtain ⟨hjoin, hlen⟩ := splitBlocks_join d
  have hshort : (splitBlocks d).2.length < 8 := hlen ▸ Nat.mod_lt _ (by decide)
  have htail : padMsg (splitBlocks d).2 = pairBytes (lastBlock (splitBlocks d).2) :=
    padMsg_tail hshort fun j hj => blockByte_tailBlock _ (hj.trans hshort)
  conv_lhs => rw [← hjoin]
  rw [padMsg_append, htail, blocksBytes_append, blocksBytes_cons, blocksBytes_nil, List.append_nil]

/-- A message is charged for each of its whole blocks and for its last one (44_usage.md R213). -/
theorem padMsg_length_eq_charges (d : List Byte) :
    (padMsg d).length = Config.chargeBytes * (splitBlocks d).1.length + Config.chargeBytes := by
  rw [padMsg_eq_blocks, blocksBytes_length, List.length_append]
  rfl

/-- `E` block by block, by the blocks that `encrypt_message` encrypts. -/
theorem ecbEncrypt_eq_blocks (sb : SBox) (k : Vector Word 8) (d : List Byte) :
    ecbEncrypt sb k d =
      blocksBytes ((splitBlocks d).1.map (encPair sb k) ++ [encPair sb k (lastBlock (splitBlocks d).2)]) := by
  rw [ecbEncrypt, padMsg_eq_blocks, splitBlocks_blocksBytes, List.map_append, List.map_singleton]

/-- The selected counter before the first charge. -/
theorem State.Inv.chargedTo_keeping {s : State} (hi : s.Inv) (hst : s.st = .idle) :
    IdleKeeping (chargedTo (usageAt s s.keyId).toNat s) s := by
  rw [hi.chargedTo_self]
  exact .refl hst

section Loaded

variable {s₀ : State} (hi : s₀.Inv) (hkey : s₀.keyvalid = true) (hst : s₀.st = .idle)

include hi hkey hst

/-- R240 with room for the whole message: the last total decides `warned`, since no earlier one is larger. -/
theorem encryptLoaded_ok {d : List Byte}
    (hroom : (usageAt s₀ s₀.keyId).toNat + (padMsg d).length ≤ s₀.params.ceilBytes) :
    ∃ t, encryptLoaded d s₀ =
        (.ok (ecbEncrypt s₀.sbox s₀.k d,
          decide (s₀.params.warnBytes < (usageAt s₀ s₀.keyId).toNat + (padMsg d).length)), t) ∧
      IdleKeeping (chargedTo ((usageAt s₀ s₀.keyId).toNat + (padMsg d).length) s₀) t := by
  rw [padMsg_length_eq_charges, ← Nat.add_assoc] at hroom ⊢
  obtain ⟨warned, u, hu, hwarn, hblocks⟩ := encryptBlocks_ok hi hkey (hi.chargedTo_keeping hst)
    (splitBlocks d).1 [] false (by omega)
  obtain ⟨v, hv, hdin, htail⟩ := encryptTail_eq hblocks ((splitBlocks_join d).2 ▸ Nat.mod_lt _ (by decide))
  obtain ⟨t, ht, hkeep⟩ := encryptDin_ok hi hkey htail hroom
  have hwarned : (warned || decide (s₀.params.warnBytes < _)) = decide (s₀.params.warnBytes < _) :=
    Bool.or_eq_right_iff_imp.2 fun hearly => decide_eq_true (by
      have hbelow := (hwarn hearly).resolve_left (by decide)
      exact Nat.lt_add_right Config.chargeBytes hbelow)
  refine ⟨t, ?_, hkeep⟩
  rw [encryptLoaded, hu]
  simp only [hv, ht, hdin, List.nil_append, ecbEncrypt_eq_blocks, hwarned]

/-- R240 without room for the whole message. -/
theorem encryptLoaded_exhausted {d : List Byte}
    (hover : s₀.params.ceilBytes < (usageAt s₀ s₀.keyId).toNat + (padMsg d).length) :
    ∃ t, encryptLoaded d s₀ = (.error .keyExhausted, t) ∧ Exhausted s₀ t := by
  rw [padMsg_length_eq_charges, ← Nat.add_assoc] at hover
  have hself := hi.chargedTo_keeping hst
  by_cases hroom : (usageAt s₀ s₀.keyId).toNat + Config.chargeBytes * (splitBlocks d).1.length ≤ s₀.params.ceilBytes
  · obtain ⟨warned, u, hu, -, hblocks⟩ := encryptBlocks_ok hi hkey hself (splitBlocks d).1 [] false hroom
    obtain ⟨v, hv, -, htail⟩ := encryptTail_eq hblocks ((splitBlocks_join d).2 ▸ Nat.mod_lt _ (by decide))
    obtain ⟨t, ht, hkeep⟩ := encryptDin_exhausted hi hkey htail hroom hover
    exact ⟨t, by simp only [encryptLoaded, hu, hv, ht], _, hroom, hover, hkeep⟩
  · obtain ⟨t, ht, hend⟩ := encryptBlocks_exhausted hi hkey hself (splitBlocks d).1 [] false hi.usageAt_keyId_le
      (Nat.lt_of_not_le hroom)
    exact ⟨t, by simp only [encryptLoaded, ht], hend⟩

end Loaded

/-- The two words of `ldkey`, latched, are the key (10_state.md R25, 30_encoding.md R98). -/
theorem keyOperand_be32 (k0 k1 k2 k3 k4 k5 k6 : Byte) :
    keyOperand (be32 k0 k1 k2 k3) (keyHiField (be32 k4 k5 k6 0)) = k0 ++ k1 ++ k2 ++ k3 ++ k4 ++ k5 ++ k6 := by
  have hhi : (keyHiField (be32 k4 k5 k6 0)).extractLsb' 8 24 = k4 ++ k5 ++ k6 := by
    simp (disch := decide) only [keyHiField, be32, extract_append_left, Nat.sub_self, extract_self]
  have hjoin : (k0 ++ k1 ++ k2 ++ k3) ++ (k4 ++ k5 ++ k6) = (k0 ++ k1 ++ k2 ++ k3) ++ (k4 ++ k5) ++ k6 :=
    BitVec.append_assoc' (x₂ := k4 ++ k5) (x₃ := k6)
  have hjoin' : (k0 ++ k1 ++ k2 ++ k3) ++ (k4 ++ k5) = (k0 ++ k1 ++ k2 ++ k3) ++ k4 ++ k5 :=
    BitVec.append_assoc' (x₂ := k4) (x₃ := k5)
  rw [keyOperand, hhi, be32, hjoin, hjoin']

theorem ldkey_idle {s : State} (h : s.st = .idle) (key : List Byte) :
    ldkey key s =
      { s with
        keyLo := be32 (key.getD 0 0) (key.getD 1 0) (key.getD 2 0) (key.getD 3 0)
        keyHi := keyHiField (be32 (key.getD 4 0) (key.getD 5 0) (key.getD 6 0) 0)
        rdata := none } := by
  simp only [ldkey, ldkeyStmts, runStmts]
  have hlo : ∀ v, afterCycle (HostStmt.wr .keyLo v).port s = { s with keyLo := v, rdata := none } := hostWr_idle h .keyLo
  rw [hlo]
  exact hostWr_idle (by exact h) .keyHi _

/-- `ldkey` writes the key's two words and nothing else that a procedure rests on. -/
theorem ldkey_keeping {s : State} (h : s.st = .idle) (key : List Byte) :
    IdleKeeping s (ldkey key s) ∧ keyOperand (ldkey key s).keyLo (ldkey key s).keyHi = masterKey key := by
  rw [ldkey_idle h]
  exact ⟨⟨h, rfl, rfl, rfl, rfl, rfl, rfl⟩, keyOperand_be32 ..⟩

/-- The host's statements keep the invariants. -/
theorem State.Inv.runStmts {s : State} (hi : s.Inv) (cs : List HostStmt) : (runStmts cs s).Inv := by
  induction cs generalizing s with
  | nil => exact hi
  | cons c cs ih => exact ih (hi.clockCycle (clockCycle_eq_next c.port s))

/-- A command keeps the invariants up to its first poll. -/
theorem State.Inv.firstPoll {s : State} (hi : s.Inv) (v : Word) : (firstPoll v s).Inv :=
  (hi.clearRdata.acceptCmd v).withRdata _

/-- `s₀` is `s` with `key` loaded and `id` selected, ready for the first block of `encrypt_message` (45_bus_control.md R240). -/
structure KeyLoaded (s : State) (key : List Byte) (id : Word) (s₀ : State) : Prop where
  inv : s₀.Inv
  st : s₀.st = .idle
  k : s₀.k = expandKey (masterKey key)
  keyvalid : s₀.keyvalid = true
  keyId : s₀.keyId = id
  usageT : s₀.usageT = s.usageT
  sbox : s₀.sbox = s.sbox
  params : s₀.params = s.params

/-- The selected counter is the one of `id`, untouched so far. -/
theorem KeyLoaded.usageAt_keyId {s s₀ : State} {key : List Byte} {id : Word} (h : KeyLoaded s key id s₀) :
    usageAt s₀ s₀.keyId = usageAt s id := by
  rw [usageAt, h.usageT, h.keyId, usageAt]

/-- The counter of `id` after the charges of a message. -/
theorem KeyLoaded.usageAt_charged {s s₀ t : State} {key : List Byte} {id : Word} {n : Nat} (h : KeyLoaded s key id s₀)
    (hn : n ≤ s.params.ceilBytes) (hkeep : IdleKeeping (chargedTo n s₀) t) : (usageAt t id).toNat = n :=
  h.keyId ▸ h.inv.usageAt_chargedTo (h.params ▸ hn) hkeep.usageT

/-- A KEYLOAD of length 7 (40_key_schedule.md R112). -/
theorem hostCmd_keyload_seven {s : State} (hi : s.Inv) (hst : s.st = .idle) :
    ∃ w t, hostCmd (keyloadWord 7) s = some (w, t) ∧ statusResult w = ResultCode.ok.code ∧ t.Inv ∧ t.st = .idle ∧
      t.k = expandKey (keyOperand s.keyLo s.keyHi) ∧ t.keyvalid = true ∧ t.usageT = s.usageT ∧ t.sbox = s.sbox ∧
      t.params = s.params := by
  have hc := EngineCase.keyload (s := firstPoll (keyloadWord 7) s) (decodeCmd_keyloadWord (by decide))
  have hinv := (hi.firstPoll (keyloadWord 7)).engineCase (by simp [firstPoll]) hc
  exact ⟨_, _, hostCmd_finishes hst _ hc rfl, (status_busy_result _).2, hinv.withRdata _, rfl, rfl, rfl, rfl, rfl, rfl⟩

/-- A KEYLOAD of another length (40_key_schedule.md R113). -/
theorem hostCmd_keyload_other {s : State} (hst : s.st = .idle) {klen : Nat} (hlt : klen < 16) (h7 : klen ≠ 7) :
    ∃ w t, hostCmd (keyloadWord klen) s = some (w, t) ∧ statusResult w = ResultCode.eKeylen.code ∧
      t.usageT = s.usageT ∧ t.k = s.k ∧ t.keyvalid = false :=
  ⟨_, _, hostCmd_finishes hst _ (.keyloadLength klen (decodeCmd_keyloadWord hlt) h7) rfl, (status_busy_result _).2, rfl, rfl,
    rfl⟩

/-- R240 up to the first block, for a key of length 7. -/
theorem encryptMessage_keyLoaded {s : State} (hi : s.Inv) (hst : s.st = .idle) (d key : List Byte) {id : Word}
    (hid : id.toNat < 2 ^ s.params.keyIdBits) :
    ∃ s₀, encryptMessage d key 7 id s = encryptLoaded d s₀ ∧ KeyLoaded s key id s₀ := by
  obtain ⟨hldkey, hoperand⟩ := ldkey_keeping hst key
  have hready : (ldkey key s).Inv := hi.runStmts _
  obtain ⟨w, t, ht, hcode, hinv, hidle, hk, hkv, husage, hsbox, hparams⟩ := hostCmd_keyload_seven hready hldkey.st
  have hmsg := encryptMessage_eq_loaded (d := d) (id := id) ht hcode
  have hselect : (hostWr .keyId id t).Inv := hinv.runStmts [.wr .keyId id]
  have hfits : id.toNat < 2 ^ t.params.keyIdBits := by rwa [hparams, hldkey.params]
  rw [hostWr_idle hidle] at hmsg hselect
  rw [hoperand] at hk
  exact ⟨_, hmsg, hselect, hidle, hk, hkv, keyIdField_of_lt hfits, husage.trans hldkey.usageT, hsbox.trans hldkey.sbox,
    hparams.trans hldkey.params⟩

/-- R240 for a key of another length: KEYLOAD refuses it before any charge. -/
theorem encryptMessage_keyLength {s : State} (hst : s.st = .idle) (d key : List Byte) (id : Word) {klen : Nat}
    (hlt : klen < 16) (h7 : klen ≠ 7) :
    ∃ t, encryptMessage d key klen id s = (.error .invalidKeyLength, t) ∧ t.usageT = s.usageT ∧ t.k = s.k ∧
      t.keyvalid = false := by
  obtain ⟨hldkey, -⟩ := ldkey_keeping hst key
  obtain ⟨w, t, ht, hcode, husage, hk, hkv⟩ := hostCmd_keyload_other hldkey.st hlt h7
  exact ⟨t, by rw [encryptMessage, ht]; exact if_pos hcode, husage.trans hldkey.usageT, hk.trans hldkey.k, hkv⟩

/-- R240 with a key of length 7 and room for the whole message. -/
theorem encryptMessage_ok {s : State} (hi : s.Inv) (hst : s.st = .idle) {d : List Byte} (key : List Byte) {id : Word}
    (hid : id.toNat < 2 ^ s.params.keyIdBits) (hroom : (usageAt s id).toNat + (padMsg d).length ≤ s.params.ceilBytes) :
    ∃ s₀ t, KeyLoaded s key id s₀ ∧
      encryptMessage d key 7 id s =
        (.ok (ecbEncrypt s.sbox (expandKey (masterKey key)) d,
          decide (s.params.warnBytes < (usageAt s id).toNat + (padMsg d).length)), t) ∧
      IdleKeeping (chargedTo ((usageAt s id).toNat + (padMsg d).length) s₀) t := by
  obtain ⟨s₀, hmsg, hload⟩ := encryptMessage_keyLoaded hi hst d key hid
  have hcount := hload.usageAt_keyId
  obtain ⟨t, ht, hkeep⟩ := encryptLoaded_ok (d := d) hload.inv hload.keyvalid hload.st (by rwa [hcount, hload.params])
  rw [hcount] at hkeep
  rw [hcount, hload.sbox, hload.k, hload.params] at ht
  exact ⟨s₀, t, hload, hmsg.trans ht, hkeep⟩

/-- Settles O57: the message past KEYLOAD, and the one counter that its blocks charged. -/
theorem encryptMessageIsEcbOfPad : Obligations.EncryptMessageIsEcbOfPad := by
  intro s d key id hi hst _ hid hroom
  obtain ⟨s₀, t, hload, hmsg, hkeep⟩ := encryptMessage_ok hi hst key hid hroom
  exact ⟨_, t, hmsg, hkeep.st, hkeep.keyvalid.trans hload.keyvalid, hkeep.k.trans hload.k,
    hload.usageAt_charged hroom hkeep, rfl⟩

/-- Settles O58: KEYLOAD refuses another length; past it the ceiling refuses the first block that has no room. -/
theorem encryptMessageFailures : Obligations.EncryptMessageFailures := by
  intro s d key id hi hst
  refine ⟨fun klen hlt h7 => encryptMessage_keyLength hst d key id hlt h7, fun hid hover => ?_⟩
  obtain ⟨s₀, hmsg, hload⟩ := encryptMessage_keyLoaded hi hst d key hid
  have hcount := hload.usageAt_keyId
  obtain ⟨t, ht, n, hn, hfull, hkeep⟩ := encryptLoaded_exhausted (d := d) hload.inv hload.keyvalid hload.st
    (by rw [hcount, hload.params]; exact hover)
  rw [hload.params] at hn hfull
  have htotal : (t.usageT.getD id.toNat 0).toNat = n := hload.usageAt_charged hn hkeep
  exact ⟨t, hmsg.trans ht, htotal ▸ hn, htotal ▸ hfull⟩

/-- `D` block by block gives the padded message back (42_feistel.md R169). -/
theorem ecbDecrypt_ecbEncrypt (sb : SBox) (k : Vector Word 8) (d : List Byte) :
    ecbDecrypt sb k (ecbEncrypt sb k d) = padMsg d := by
  have hinverse : decPair sb k ∘ encPair sb k = id := funext (decPair_encPair sb k)
  rw [ecbDecrypt, ecbEncrypt, splitBlocks_blocksBytes, List.map_map, hinverse, List.map_id, padMsg_eq_blocks,
    splitBlocks_blocksBytes]

/-- Settles O60: the ciphertext is whole blocks, `D` undoes `E` on each of them, and `unpad` undoes `pad`. -/
theorem messageRoundTrip : Obligations.MessageRoundTrip := by
  intro s d key id hi hst _ hid hroom
  obtain ⟨s₀, t, hload, hmsg, hkeep⟩ := encryptMessage_ok hi hst key hid hroom
  have hwhole : (splitBlocks (ecbEncrypt s.sbox (expandKey (masterKey key)) d)).2 = [] := by
    rw [ecbEncrypt, splitBlocks_blocksBytes]
  obtain ⟨u, hu, -⟩ := decryptMessage_eq (mode := .strict) (hkeep.keyvalid.trans hload.keyvalid) hkeep.st fun h => h.1 hwhole
  have hsbox : t.sbox = s.sbox := hkeep.sbox.trans hload.sbox
  have hk : t.k = expandKey (masterKey key) := hkeep.k.trans hload.k
  rw [hwhole, hsbox, hk, ecbDecrypt_ecbEncrypt, unpadInvertsPad, List.append_nil] at hu
  exact ⟨_, _, t, u, hmsg, hu⟩

end Sys2Proof.Machine
end

section
/-! PROOFS. The interrupt line (60_exceptions.md R252): its level by DONE, and how writes and the end of a command move it. -/

namespace Sys2Proof.Machine

/-- Without DONE the line is low, whatever CFG.IE is. -/
theorem irq_eq_false_of_done {s : State} (h : s.done = false) : irq s = false := by
  rw [irq, h, Bool.and_false]

/-- With DONE set the line is CFG.IE. -/
theorem irq_eq_ie_of_done {s : State} (h : s.done = true) : irq s = s.cfg.getLsbD 0 := by
  rw [irq, State.ie, h, Bool.and_true]

/-- The enable is the bit the host wrote (10_state.md R42). -/
theorem cfgField_getLsbD_zero (v : Word) : (cfgField v).getLsbD 0 = v.getLsbD 0 := by
  rw [cfgField_eq_and, BitVec.getLsbD_and]
  exact Bool.and_true _

/-- What a bus write leaves is `writeWord`'s (45_bus_control.md R231). -/
theorem eq_writeWord_of_exec_buswr {addr : BitVec 6} {v : Word} {s t : State} (h : exec (.buswr addr v) s = .next t) :
    t = writeWord addr v s :=
  (Host.Outcome.next.inj h).symm

/-- A command that leaves the engine idle has set DONE (10_state.md R36, 42_feistel.md R170). -/
theorem EngineEnd.done_of_idle {s t : State} (h : EngineEnd s t) (hidle : t.st = .idle) : t.done = true := by
  cases h with
  | finished _ hdone => exact hdone
  | goesOn hrounds => simp [hidle] at hrounds

/-- Settles O20: the line follows DONE, which a W1C and an acceptance clear and every finish sets, and CFG.IE, which a CFG write sets
and no engine step moves. -/
theorem irqIsEnableAndDone : Obligations.IrqIsEnableAndDone := by
  intro s
  refine ⟨?_, ?w1c, ?accept, ?cfg, ?finish, irq_eq_false_of_done rfl⟩
  · obtain ⟨hdone, -⟩ := status_flags s
    rw [hdone]
    rfl
  case w1c =>
    intro v t hv h
    obtain rfl := eq_writeWord_of_exec_buswr h
    have hclear : (statusWrite v s).done = false := by rw [statusWrite_done, hv, Bool.not_true, Bool.and_false]
    exact irq_eq_false_of_done hclear
  case accept =>
    intro v t hst h
    rw [acceptanceLatchesOperands s v hst] at h
    obtain rfl := Host.Outcome.next.inj h
    exact irq_eq_false_of_done rfl
  case cfg =>
    intro v t h
    obtain rfl := eq_writeWord_of_exec_buswr h
    exact congrArg (· && s.done) (cfgField_getLsbD_zero v)
  case finish =>
    intro t _ h hidle
    have hc : EngineCase s t := engineStep_cases h
    rw [irq_eq_ie_of_done (hc.ends.done_of_idle hidle), hc.keeps.cfg]

end Sys2Proof.Machine
end

section
/-! PROOFS. Hazards (70_reset_and_hazards.md R280, R286, R290, R293): nothing stops the block, reset overrides its cycle, and what only
the finishing step of a command shows. -/

namespace Sys2Proof.Machine

/-- Every instruction answers a next state, in any state (70_reset_and_hazards.md R293). -/
theorem exec_next (i : Instr) (s : State) : ∃ t, exec i s = .next t := by
  cases i with
  | keyload klen =>
    by_cases h7 : klen = 7
    · exact ⟨_, h7 ▸ exec_keyload_seven s⟩
    · exact ⟨_, execKeyload_of_ne h7 s⟩
  | enc =>
    by_cases hst : s.st = .rounds
    · exact ⟨_, execEnc_rounds hst⟩
    · exact ⟨_, execEnc_start hst⟩
  | dec =>
    by_cases hst : s.st = .rounds
    · exact ⟨_, execDec_rounds hst⟩
    · exact ⟨_, execDec_start hst⟩
  | _ => exact ⟨_, rfl⟩

/-- Settles O9: every instruction and every step answers a next state. -/
theorem nothingStopsTheBlock : Obligations.NothingStopsTheBlock := ⟨exec_next, step_next⟩

/-- What a reset cycle leaves is a function of the ROM, the parameters, the host's coming inputs, and whether the cycle reads
(70_reset_and_hazards.md R280). -/
theorem applyReset_eq (p : PortIn) (s : State) :
    applyReset p s =
      { State.resetOf s.sbox s.params with
        inputs := s.inputs, rdata := if p.sel = true ∧ p.we = false then some 0 else none } := by
  simp [applyReset]

/-- Settles O11: each reset cycle leaves what `applyReset_eq` says, and the registers it names of the old state are kept by it. -/
theorem resetOverridesTheCycle : Obligations.ResetOverridesTheCycle := by
  intro s p rest hin hrst
  refine ⟨_, (step_reset hin hrst).trans (congrArg _ (applyReset_eq p _)), rfl, ?sameRom, ?again⟩
  case sameRom =>
    intro s' hsbox hparams hinputs
    rw [step_reset (hinputs.trans hin) hrst, applyReset_eq]
    simp only [hsbox, hparams]
  case again =>
    rintro q rest' rfl hq hsel hwe
    rw [step_reset rfl hq, applyReset_eq, hsel, hwe]
    rfl

/-- The host's part on an idle machine shows no result, a command accepted or not (10_state.md R31, R32, R38). -/
theorem afterHost_idle_results {s : State} (h : s.st = .idle) (p : PortIn) :
    (afterHost p s).doutHi = s.doutHi ∧ (afterHost p s).doutLo = s.doutLo ∧ (afterHost p s).uplen = s.uplen ∧
      (afterHost p s).result = s.result := by
  rcases afterHost_idle h p with ⟨-, -, -, ha⟩ | hs
  · rw [ha]; exact ⟨rfl, rfl, rfl, rfl⟩
  · exact ⟨hs.doutHi, hs.doutLo, hs.uplen, hs.result⟩

/-- Settles O45: the host's part writes no result, and an engine step that does not finish goes on with every result kept. -/
theorem resultsChangeOnlyAtTheFinish : Obligations.ResultsChangeOnlyAtTheFinish := by
  intro s t hr h hunfinished
  rcases step_cases hr h with ⟨hst, rfl⟩ | ⟨hbusy, u, hu, hc⟩
  · obtain ⟨-, hk, hkv⟩ := afterHost_idle_keeps (s := takeInput s) hst (nextInput s)
    obtain ⟨hhi, hlo, huplen, hresult⟩ := afterHost_idle_results (s := takeInput s) hst (nextInput s)
    exact ⟨hhi, hlo, huplen, hresult, hkv, hk⟩
  · have hrunning : t.st ≠ .idle := hunfinished.resolve_left hbusy
    cases hc.ends with
    | finished hidle => exact absurd hidle hrunning
    | goesOn _ _ _ hresult hhi hlo huplen hkv hk =>
      exact ⟨hhi.trans hu.doutHi, hlo.trans hu.doutLo, huplen.trans hu.uplen, hresult.trans hu.result,
        hkv.trans hu.keyvalid, hk.trans hu.k⟩

/-- Settles O47: the engine's step comes after the host's part, so a finish sets its flags last; the host's part and a step that does
not finish set none. -/
theorem finishWinsOverClearing : Obligations.FinishWinsOverClearing := by
  intro s t hr h
  by_cases hst : s.st = .idle
  · rcases step_cases hr h with ⟨-, rfl⟩ | ⟨hbusy, -⟩
    · obtain ⟨-, hdone, -⟩ := afterHost_flags (nextInput s) (takeInput s)
      exact ⟨fun hbusy => absurd hst hbusy, fun hset hclear => absurd (hdone hset) (ne_true_of_eq_false hclear)⟩
    · exact absurd hst hbusy
  · obtain ⟨u, -, -, hdone, -, hstep⟩ := step_busy hr hst
    cases (engineStep_cases (hstep ▸ h)).ends with
    | finished hidle hset hwarn => exact ⟨fun _ _ => ⟨hset, fun hcode => by simp [hwarn, hcode]⟩, fun _ _ => ⟨hst, hidle⟩⟩
    | goesOn hrounds hkeep =>
      exact ⟨fun _ hidle => by simp [hrounds] at hidle,
        fun hset hclear => absurd (hdone (hkeep ▸ hset)) (ne_true_of_eq_false hclear)⟩

end Sys2Proof.Machine
end

section
/-! PROOFS. Every accepted command finishes (70_reset_and_hazards.md R293, R294): a busy engine has a bounded number of cycles left, and
each of its steps finishes the command or leaves fewer. -/

namespace Sys2Proof.Machine

/-- The most cycles a command in flight still takes: START and 32 rounds, or the rounds from `r` on (70_reset_and_hazards.md R294). -/
def cyclesLeft (s : State) : Nat :=
  match s.st with
  | .idle => 0
  | .start => 33
  | .rounds => 32 - s.r.toNat

theorem cyclesLeft_start {s : State} (h : s.st = .start) : cyclesLeft s = 33 := by
  simp only [cyclesLeft, h]

theorem cyclesLeft_rounds {s : State} (h : s.st = .rounds) : cyclesLeft s = 32 - s.r.toNat := by
  simp only [cyclesLeft, h]

/-- The bound of R294. -/
theorem cyclesLeft_le (s : State) : cyclesLeft s ≤ 33 := by
  unfold cyclesLeft
  split <;> omega

theorem cyclesLeft_pos {s : State} (h : s.st ≠ .idle) : 0 < cyclesLeft s := by
  cases hst : s.st with
  | idle => exact absurd hst h
  | start => rw [cyclesLeft_start hst]; omega
  | rounds => have := s.r.isLt; rw [cyclesLeft_rounds hst]; omega

/-- The host's traffic does not delay a command (70_reset_and_hazards.md R288). -/
theorem SameEngine.cyclesLeft_eq {s t : State} (h : SameEngine s t) : cyclesLeft t = cyclesLeft s := by
  simp only [cyclesLeft, h.st, h.r]

/-- A ROUNDS step finishes its command or goes on to the next round (42_feistel.md R165 to R167). -/
theorem roundsStep_finishes_or_next {s : State} (hst : s.st = .rounds) (rk : Word) (code : ResultCode) :
    ((roundsStep rk code s).st = .idle ∧ (roundsStep rk code s).done = true) ∨
      ((roundsStep rk code s).st = .rounds ∧ (roundsStep rk code s).r.toNat = s.r.toNat + 1) := by
  by_cases hr : s.r.toNat < 31
  · rw [roundsStep_middle hr]
    refine .inr ⟨hst, ?_⟩
    show (s.r + 1).toNat = s.r.toNat + 1
    bv_omega
  · rw [roundsStep_last hr]
    exact .inl ⟨rfl, rfl⟩

/-- An engine step in ROUNDS finishes the command or goes on to the next round, whatever command L_CMD holds. -/
theorem EngineCase.rounds {s t : State} (h : EngineCase s t) (hst : s.st = .rounds) :
    (t.st = .idle ∧ t.done = true) ∨ (t.st = .rounds ∧ t.r.toNat = s.r.toNat + 1) := by
  cases h with
  | encRound => exact roundsStep_finishes_or_next hst _ _
  | decRound => exact roundsStep_finishes_or_next hst _ _
  | encBegin _ hne => exact absurd hst hne
  | decBegin _ hne => exact absurd hst hne
  | _ => exact .inl ⟨rfl, rfl⟩

/-- An engine step of a busy machine finishes the command or leaves it fewer cycles. -/
theorem EngineCase.progress {s t : State} (h : EngineCase s t) (hbusy : s.st ≠ .idle) :
    (t.st = .idle ∧ t.done = true) ∨ (t.st ≠ .idle ∧ cyclesLeft t < cyclesLeft s) := by
  cases hst : s.st with
  | idle => exact absurd hst hbusy
  | start =>
    refine (h.start hst).imp_right fun ⟨hrounds, hr⟩ => ⟨by simp [hrounds], ?_⟩
    rw [cyclesLeft_rounds hrounds, cyclesLeft_start hst]
    omega
  | rounds =>
    refine (h.rounds hst).imp_right fun ⟨hrounds, hr⟩ => ⟨by simp [hrounds], ?_⟩
    have := t.r.isLt
    rw [cyclesLeft_rounds hrounds, cyclesLeft_rounds hst]
    omega

/-- Within `n` cycles the machine is idle with DONE set, and until then it is busy. -/
def FinishesWithin (n : Nat) (s : State) : Prop :=
  ∃ m t, 0 < m ∧ m ≤ n ∧ runCycles m s = .next t ∧ t.st = .idle ∧ t.done = true ∧
    ∀ k u, k < m → runCycles k s = .next u → u.st ≠ .idle

/-- A busy machine is busy in the run of no cycles, and in every longer one that the run from its next state sees busy. -/
theorem busy_until_succ {s t : State} (hbusy : s.st ≠ .idle) (hstep : step s = .next t) {m : Nat}
    (h : ∀ k u, k < m → runCycles k t = .next u → u.st ≠ .idle) :
    ∀ k u, k < m + 1 → runCycles k s = .next u → u.st ≠ .idle := by
  rintro (_ | k) u hlt hrun
  · obtain rfl : s = u := Host.Outcome.next.inj hrun
    exact hbusy
  · rw [runCycles_succ hstep] at hrun
    exact h k u (Nat.lt_of_succ_lt_succ hlt) hrun

/-- A busy machine whose next step finishes. -/
theorem finishesWithin_of_step {s t : State} (hbusy : s.st ≠ .idle) (hstep : step s = .next t) (hidle : t.st = .idle)
    (hdone : t.done = true) (n : Nat) : FinishesWithin (n + 1) s :=
  ⟨1, t, Nat.one_pos, Nat.le_add_left 1 n, runCycles_succ hstep 0, hidle, hdone,
    busy_until_succ hbusy hstep fun k _ hlt => absurd hlt (Nat.not_lt_zero k)⟩

/-- A busy machine takes one cycle more than what its next step leaves. -/
theorem FinishesWithin.of_step {s t : State} {n : Nat} (h : FinishesWithin n t) (hbusy : s.st ≠ .idle)
    (hstep : step s = .next t) : FinishesWithin (n + 1) s := by
  obtain ⟨m, v, -, hle, hrun, hidle, hdone, huntil⟩ := h
  exact ⟨m + 1, v, Nat.succ_pos m, Nat.succ_le_succ hle, (runCycles_succ hstep m).trans hrun, hidle, hdone,
    busy_until_succ hbusy hstep huntil⟩

/-- A command in flight finishes within the cycles it has left, whatever the host does but reset. -/
theorem finishesWithin_of_cyclesLeft_le {n : Nat} {s : State} (hbusy : s.st ≠ .idle) (hr : s.noReset n)
    (hn : cyclesLeft s ≤ n) : FinishesWithin n s := by
  induction n generalizing s with
  | zero => exact absurd (cyclesLeft_pos hbusy) (Nat.not_lt.2 hn)
  | succ n ih =>
    obtain ⟨u, hu, hin, -, -, hstep⟩ := step_busy (noReset_next hr) hbusy
    obtain ⟨t, ht, hc⟩ := engineStep_case u
    have hnext : step s = .next t := hstep.trans ht
    rcases hc.progress (hu.st ▸ hbusy) with ⟨hidle, hdone⟩ | ⟨hrunning, hless⟩
    · exact finishesWithin_of_step hbusy hnext hidle hdone n
    · rw [hu.cyclesLeft_eq] at hless
      exact (ih hrunning (noReset_tail hr (hc.keeps.inputs.trans hin)) (by omega)).of_step hbusy hnext

/-- Settles O50: a command has at most 33 cycles left. The invariants are not needed: an engine step in ROUNDS with a command other
than ENC or DEC in L_CMD, which they exclude, finishes at once. -/
theorem everyCommandFinishes : Obligations.EveryCommandFinishes :=
  fun s _ hbusy hr => finishesWithin_of_cyclesLeft_le hbusy hr (cyclesLeft_le s)

end Sys2Proof.Machine
end
